-- ==== Sys2Proof/Word.lean ====
section
/-! DEFINITION. The machine's words and their readings (spec/00_scope.md rule R5).

For an 8-bit value `v` the spec's unsigned reading `u(v)` is `v.toNat` and its two's-complement
reading `s(v)` is `v.toInt`; its `wrap8` is `wrap8` below. -/

namespace Sys2Proof

/-- A byte: a memory cell, a general register, an opcode or an operand byte (rules R4, R10, R17).
The width of a register is decision D2 of the spec (log entry 10). -/
abbrev Byte := BitVec 8

/-- The program counter's word: 9 bits, values 0..256 (rule R12, decision D4; log entry 6). -/
abbrev PcWord := BitVec 9

/-- `wrap8(n)`: the 8-bit value whose unsigned reading is `n mod 256` (rule R5, decision D3). -/
abbrev wrap8 (n : Int) : Byte := BitVec.ofInt 8 n

end Sys2Proof
end

