-- ==== Sys2Proof/Config.lean ====
section
/-! DEFINITION. The parameters of the hardware (spec/00_scope.md rule R4), each with the value this
hardware takes. The spec leaves no value free, so there is no opaque constant here
(spec/93_implementation_defined.md part 1). -/

namespace Sys2Proof.Config

/-- MEM_SIZE: the number of memory cells, addresses 0..255 (rules R4, R17). -/
def memSize : Nat := 256

/-- NREG: the number of general registers (rules R4, R10). -/
def numRegs : Nat := 8

/-- LOAD_BASE: the address of the first loaded byte, and where execution begins (rules R4, R191). -/
def loadBase : Nat := 0

/-- SP_INIT: SP at reset, the empty-stack address. The numeral is decision D5 of the spec, from general
knowledge (UNVERIFIED, log entry 11: unsafe). -/
def spInit : Byte := 0xF4

/-- What a cell nothing has written holds: the "defined empty value (zero)" (rule R23, decision D9;
UNVERIFIED, log entry 13: unsafe). -/
def emptyByte : Byte := 0x00

/-- The two division policies the source allows (spec/93_implementation_defined.md U2). -/
inductive DivPolicy where
  /-- The quotient is rounded toward zero. -/
  | truncate
  /-- The quotient is rounded toward minus infinity. -/
  | floor
  deriving DecidableEq, Repr

/-- DIV_POLICY: truncate toward zero (rule R4, decision D14; UNVERIFIED, log entry 14: unsafe). -/
def divPolicy : DivPolicy := .truncate

end Sys2Proof.Config
end

