-- ==== Sys2Proof/Syntax.lean ====
section
/-! DEFINITION. The instructions: one constructor per row of spec/opcode_table.json
(spec/30_encoding.md rules R50, R56).

An operand is the whole operand byte, as the decoder reads it (rules R53, R54). That a register byte
names one of R0..R7 is a check made after decoding (spec/43_executor.md rule R143), so it is not in the
type: `Instr.wellFormed` states it and every meaning begins with it (log entry 20). -/

namespace Sys2Proof

/-- The 32 instructions. In `st`, the first operand holds the address and the second the data (rule R124). -/
inductive Instr where
  -- Other (spec/42_other.md)
  | nop
  | hlt
  | ldi (reg imm : Byte)
  | ld (regA regB : Byte)
  | st (regA regB : Byte)
  | push (reg : Byte)
  | pop (reg : Byte)
  | prn (reg : Byte)
  | pra (reg : Byte)
  -- ControlFlow (spec/41_control_flow.md)
  | call (reg : Byte)
  | ret
  | jmp (reg : Byte)
  | jeq (reg : Byte)
  | jne (reg : Byte)
  | jgt (reg : Byte)
  | jlt (reg : Byte)
  | jle (reg : Byte)
  | jge (reg : Byte)
  -- ArithmeticLogic (spec/40_alu.md)
  | add (regA regB : Byte)
  | sub (regA regB : Byte)
  | mul (regA regB : Byte)
  | div (regA regB : Byte)
  | mod (regA regB : Byte)
  | inc (reg : Byte)
  | dec (reg : Byte)
  | cmp (regA regB : Byte)
  | and (regA regB : Byte)
  | or (regA regB : Byte)
  | xor (regA regB : Byte)
  | not (reg : Byte)
  | shl (regA regB : Byte)
  | shr (regA regB : Byte)
  deriving DecidableEq, Repr

/-- The category the decoder classifies an opcode into (rule R52). -/
inductive Category where
  | arithmeticLogic
  | controlFlow
  | other
  deriving DecidableEq, Repr

/-- The four instruction formats (rule R50): no operand; a register; two registers; a register and an
immediate. -/
inductive Format where
  | z
  | r
  | rr
  | ri
  deriving DecidableEq, Repr

end Sys2Proof
end

