-- ==== Sys2Proof/Machine/State.lean ====
section
/-! DEFINITION. The state of the machine, its reset value, and why a step can stop
(spec/10_state.md rules R10 to R24, spec/70_reset_and_hazards.md rule R190). -/

namespace Sys2Proof.Machine

/-- The Executor's run state (rule R18). -/
inductive RunState where
  | running
  | halted
  deriving DecidableEq, Repr

/-- The five fatal errors (spec/60_exceptions.md rule R160), with the `info` the spec allows a model to keep
(log entry 5). -/
inductive FatalError where
  /-- The byte at PC is no opcode of the map (rule R161); the byte. -/
  | invalidOpcode (op : Byte)
  /-- DIV or MOD by a register that holds 0x00 (rule R162). -/
  | divideByZero
  /-- A push with SP = 0 (rule R163). -/
  | stackOverflow
  /-- A pop with SP = SP_INIT (rule R164). -/
  | stackUnderflow
  /-- A memory address or register index outside its bounds (rule R165); the address or index. -/
  | addressOutOfRange (at_ : Nat)
  deriving DecidableEq, Repr

/-- One event of the output trace (rule R20): a decimal number (PRN) or a code point (PRA). -/
inductive OutEvent where
  | dec (n : Int)
  | chr (c : Nat)
  deriving DecidableEq, Repr

/-- Memory: the cells that do not hold `Config.emptyByte`, by strictly rising address (`Memory.wf`). -/
abbrev Memory := List Host.Cell

/-- The whole architectural state (spec/10_state.md) and the output trace (rule R20, log entry 4). -/
structure State where
  /-- R0..R7 (rule R10). -/
  regs : Vector Byte 8
  /-- PC, 9 bits, 0..256 (rule R12). During a step: the address of the instruction's own opcode byte. -/
  pc : PcWord
  /-- SP, 0..SP_INIT (rule R14). -/
  sp : Byte
  /-- FL: L is bit 2, G bit 1, E bit 0 (rule R15, log entry 8). -/
  fl : BitVec 3
  /-- Running or Halted (rule R18). -/
  run : RunState
  /-- The error-cause register; `none` is the spec's own value None (rule R19). -/
  err : Option FatalError
  /-- The 256 cells (rule R17). -/
  mem : Memory
  /-- The output trace, oldest event first (rule R20). -/
  out : List OutEvent
  deriving DecidableEq, Repr

/-- Why a step gives no next state. The five fatal errors are NOT here: the spec describes their entry, so
they are next states (rule R166, log entry 1). -/
inductive Fault where
  /-- Raised by `step` alone, in a Halted state: "From a Halted state there is no step" (rules R140, R174).
  Safe: the model stops where the hardware does nothing (log entry 2). -/
  | halted
  deriving DecidableEq, Repr

/-- Why an instruction has no meaning. No instruction of this model is refused. -/
inductive Refusal where
  /-- Raised by an arm of `exec` whose instruction has no meaning yet; no arm does. Safe: the model stops. -/
  | notModelled (mnemonic : String)
  deriving DecidableEq, Repr

/-- The state after reset (the table of rule R23; its numbers are decisions D5 to D9 of the spec, log entries
11, 12, 13). -/
def State.reset : State where
  regs := Vector.replicate 8 0x00
  pc := 0
  sp := Config.spInit
  fl := 0b000
  run := .running
  err := none
  mem := []
  out := []

end Sys2Proof.Machine
end

