-- ==== Sys2Proof/Machine/Flags.lean ====
section
/-! DEFINITION. The flags register FL: its three bits, what CMP writes, and the six jump conditions
(spec/10_state.md rules R15, R16; spec/40_alu.md rule R77; spec/41_control_flow.md rules R105 to R111). -/

namespace Sys2Proof.Machine

/-- E, Equal: `fl[0]`. -/
def flagE (fl : BitVec 3) : Bool := fl.getLsbD 0

/-- G, Greater: `fl[1]`. -/
def flagG (fl : BitVec 3) : Bool := fl.getLsbD 1

/-- L, Less: `fl[2]`. -/
def flagL (fl : BitVec 3) : Bool := fl.getLsbD 2

/-- `L ++ G ++ E`. -/
def packFlags (l g e : Bool) : BitVec 3 :=
  BitVec.ofBool l ++ BitVec.ofBool g ++ BitVec.ofBool e

/-- What CMP writes for the contents of reg_a and reg_b: the signed comparison (rule R77, decision D13). -/
def compareFlags (x y : Byte) : BitVec 3 :=
  packFlags (decide (x.toInt < y.toInt)) (decide (x.toInt > y.toInt)) (decide (x.toInt = y.toInt))

/-- The condition of JEQ (rule R105). -/
def condEq (fl : BitVec 3) : Bool := flagE fl

/-- The condition of JNE (rule R106). -/
def condNe (fl : BitVec 3) : Bool := !flagE fl

/-- The condition of JGT (rule R107). -/
def condGt (fl : BitVec 3) : Bool := flagG fl

/-- The condition of JLT (rule R108). -/
def condLt (fl : BitVec 3) : Bool := flagL fl

/-- The condition of JLE (rule R109). -/
def condLe (fl : BitVec 3) : Bool := flagE fl || flagL fl

/-- The condition of JGE (rule R110). -/
def condGe (fl : BitVec 3) : Bool := flagE fl || flagG fl

end Sys2Proof.Machine
end

