-- ==== Sys2Proof/Machine/Ops.lean ====
section
/-! DEFINITION. The named operations over the state: memory, the program counter, the stack, output, and
taking a fatal error (spec/20_memory.md, spec/41_control_flow.md section 1, spec/60_exceptions.md
section 2). An operation that can fail answers in `Except FatalError`: the error says which cause is raised. -/

namespace Sys2Proof.Machine

/-- What an instruction's meaning answers. -/
abbrev Result := Host.Outcome State Fault Refusal

/-! ## Memory (rules R30, R31) -/

/-- The content of cell `addr`. A cell that is not listed holds `Config.emptyByte`. -/
def Memory.read : Memory → Nat → Byte
  | [], _ => Config.emptyByte
  | (a, v) :: m, addr => if addr = a then v else Memory.read m addr

/-- Replace the content of cell `addr`, keeping the canonical form: cells in rising order, and a cell that
comes to hold `Config.emptyByte` is not listed. -/
def Memory.write : Memory → Nat → Byte → Memory
  | [], addr, v => if v = Config.emptyByte then [] else [(addr, v)]
  | (a, w) :: m, addr, v =>
    if addr < a then
      if v = Config.emptyByte then (a, w) :: m else (addr, v) :: (a, w) :: m
    else if addr = a then
      if v = Config.emptyByte then m else (addr, v) :: m
    else (a, w) :: Memory.write m addr v

/-- The canonical form: strictly rising addresses, each one of 0..255, and no cell listed that holds what an
unlisted cell holds. -/
def Memory.wf (m : Memory) : Bool :=
  decide (m.Pairwise fun c d => c.1 < d.1) &&
    m.all fun c => decide (c.1 < Config.memSize) && decide (c.2 ≠ Config.emptyByte)

/-- `MemRead(addr, 1)` (rules R30, R31). Every address this hardware forms is a natural number (rule R31). -/
def memRead (m : Memory) (addr : Nat) : Except FatalError Byte :=
  if addr < Config.memSize then .ok (m.read addr) else .error (.addressOutOfRange addr)

/-- `MemWrite(addr, 1, v)` (rules R30, R31). -/
def memWrite (m : Memory) (addr : Nat) (v : Byte) : Except FatalError Memory :=
  if addr < Config.memSize then .ok (m.write addr v) else .error (.addressOutOfRange addr)

/-! ## The program counter (rules R13, R145) -/

/-- `zext_9(v)`: a register's or a cell's byte as a PC value (rules R6, R112). -/
def zext9 (v : Byte) : PcWord := v.setWidth 9

/-- `pc <- target`: the instruction sets PC itself. -/
def setPc (target : PcWord) (s : State) : State := { s with pc := target }

/-- The sequential advance of an instruction with `n` operand bytes: `pc <- pc + n + 1`. -/
def advance (n : Nat) (s : State) : State := { s with pc := s.pc + BitVec.ofNat 9 (n + 1) }

/-! ## Fatal errors (rules R146, R166) -/

/-- TAKING A FATAL ERROR: `run <- Halted`, `err <- e`, and nothing else; PC still holds the address of the
failing instruction's opcode byte. There is no handler and no return (rule R169). -/
def raise (e : FatalError) (s : State) : State := { s with run := .halted, err := some e }

/-- All or nothing (rule R146): an instruction that completes commits all its writes; one that raises an error
leaves the state before the step, with the error taken. -/
def commit (s : State) (r : Except FatalError State) : Result :=
  match r with
  | .ok t => .next t
  | .error e => .next (raise e s)

/-- The numeric code of the error-cause register (rules R19, R160, decision D20). -/
def errCode : Option FatalError → Nat
  | none => 0
  | some (.invalidOpcode _) => 1
  | some .divideByZero => 2
  | some .stackOverflow => 3
  | some .stackUnderflow => 4
  | some (.addressOutOfRange _) => 5

/-! ## The stack primitives (rules R100, R101) -/

/-- `push(v)`: SP is decremented and the cell at the new SP written; StackOverflow when SP is 0. -/
def push (v : Byte) (s : State) : Except FatalError State :=
  if s.sp = 0 then .error .stackOverflow
  else do
    let sp' := s.sp - 1
    let mem' ← memWrite s.mem sp'.toNat v
    .ok { s with sp := sp', mem := mem' }

/-- `pop()`: the cell at SP is read and cleared and SP incremented; StackUnderflow when SP is SP_INIT. -/
def pop (s : State) : Except FatalError (Byte × State) :=
  if s.sp = Config.spInit then .error .stackUnderflow
  else do
    let v ← memRead s.mem s.sp.toNat
    let mem' ← memWrite s.mem s.sp.toNat 0x00
    .ok (v, { s with sp := s.sp + 1, mem := mem' })

/-! ## Output and the normal stop (rules R20, R121) -/

/-- `emit e`: append one event to the output trace. -/
def emit (e : OutEvent) (s : State) : State := { s with out := s.out ++ [e] }

/-- `halt`: the normal stop, with cause None. -/
def halt (s : State) : State := { s with run := .halted, err := none }

end Sys2Proof.Machine
end

