-- ==== Sys2Proof/Machine/Operands.lean ====
section
/-! DEFINITION. The operand forms: a register byte and its bounds check, reading and writing a general
register, and the unsigned reading of a register as an address (spec/10_state.md rule R11,
spec/30_encoding.md rules R53, R54, spec/43_executor.md rule R143). An immediate is its byte unchanged. -/

namespace Sys2Proof.Machine

/-- The register a register byte names: the whole byte, read unsigned, is the index; 8..255 raises
AddressOutOfRange (rules R53, R143, decision D27). -/
def regIndex (b : Byte) : Except FatalError (Fin 8) :=
  if h : b.toNat < 8 then .ok ⟨b.toNat, h⟩ else .error (.addressOutOfRange b.toNat)

/-- The operand check of formats R and RI (rule R143). -/
def oneReg (a : Byte) (s : State) (k : Fin 8 → Except FatalError State) : Result :=
  commit s do
    let i ← regIndex a
    k i

/-- The operand check of format RR: both registers, the first operand first (rule R143). -/
def twoRegs (a b : Byte) (s : State) (k : Fin 8 → Fin 8 → Except FatalError State) : Result :=
  commit s do
    let i ← regIndex a
    let j ← regIndex b
    k i j

/-- `x[i]`. -/
def readReg (s : State) (i : Fin 8) : Byte := s.regs[i]

/-- `x[i] <- v`: all 8 bits are replaced. -/
def writeReg (i : Fin 8) (v : Byte) (s : State) : State := { s with regs := s.regs.set i v }

/-- The memory address a register holds: its unsigned reading (rules R31, R129, decision D13). -/
def regAddr (s : State) (i : Fin 8) : Nat := (readReg s i).toNat

end Sys2Proof.Machine
end

