-- ==== Sys2Proof/Machine/Alu.lean ====
section
/-! DEFINITION. The fourteen ALU instructions (spec/40_alu.md): first what each computes from the register
contents, then the instructions. Every arithmetic result is computed on the signed readings as an integer and
then wrapped (rule R85). -/

namespace Sys2Proof.Machine

/-! ## What is computed -/

/-- ADD (rule R70). -/
def aluAdd (x y : Byte) : Byte := wrap8 (x.toInt + y.toInt)

/-- SUB (rule R71). -/
def aluSub (x y : Byte) : Byte := wrap8 (x.toInt - y.toInt)

/-- MUL (rule R72). -/
def aluMul (x y : Byte) : Byte := wrap8 (x.toInt * y.toInt)

/-- The quotient under a division policy (rule R73, decision D14, log entry 14). -/
def quotient : Config.DivPolicy → Int → Int → Int
  | .truncate, m, n => m.tdiv n
  | .floor, m, n => m.fdiv n

/-- The remainder that goes with the quotient: dividend minus quotient times divisor (rule R74,
decision D15). -/
def remainder (p : Config.DivPolicy) (m n : Int) : Int := m - quotient p m n * n

/-- DIV: DivideByZero when reg_b holds 0x00, else the wrapped quotient (rule R73). -/
def aluDiv (x y : Byte) : Except FatalError Byte :=
  if y = 0x00 then .error .divideByZero else .ok (wrap8 (quotient Config.divPolicy x.toInt y.toInt))

/-- MOD: DivideByZero when reg_b holds 0x00, else the remainder (rule R74). -/
def aluMod (x y : Byte) : Except FatalError Byte :=
  if y = 0x00 then .error .divideByZero else .ok (wrap8 (remainder Config.divPolicy x.toInt y.toInt))

/-- INC (rule R75). -/
def aluInc (x : Byte) : Byte := wrap8 (x.toInt + 1)

/-- DEC (rule R76). -/
def aluDec (x : Byte) : Byte := wrap8 (x.toInt - 1)

/-- SHL: the content of reg_b, shifted left by its own unsigned reading; 0x00 from 8 on (rule R82,
decision D16, conflict C1, log entry 15). -/
def aluShl (y : Byte) : Byte :=
  let k := y.toNat
  if k ≥ 8 then 0x00 else wrap8 ((y.toNat * 2 ^ k : Nat) : Int)

/-- SHR: the content of reg_b, shifted right arithmetically by its own unsigned reading (rule R83,
decision D16). -/
def aluShr (y : Byte) : Byte :=
  let k := y.toNat
  wrap8 (y.toInt.fdiv ((2 ^ k : Nat) : Int))

/-! ## The shapes (rule R84) -/

/-- `x[a] <- op x[a] x[b]`, where the operation may raise an error; then the advance by 3. -/
def aluBinary (op : Byte → Byte → Except FatalError Byte) (a b : Byte) (s : State) : Result :=
  twoRegs a b s fun i j => do
    let v ← op (readReg s i) (readReg s j)
    .ok (advance 2 (writeReg i v s))

/-- `x[a] <- op x[a]`; then the advance by 2. -/
def aluUnary (op : Byte → Byte) (a : Byte) (s : State) : Result :=
  oneReg a s fun i => .ok (advance 1 (writeReg i (op (readReg s i)) s))

/-! ## The instructions -/

/-- ADD reg_a, reg_b (rule R70). -/
def execAdd (a b : Byte) (s : State) : Result := aluBinary (fun x y => .ok (aluAdd x y)) a b s

/-- SUB reg_a, reg_b (rule R71). -/
def execSub (a b : Byte) (s : State) : Result := aluBinary (fun x y => .ok (aluSub x y)) a b s

/-- MUL reg_a, reg_b (rule R72). -/
def execMul (a b : Byte) (s : State) : Result := aluBinary (fun x y => .ok (aluMul x y)) a b s

/-- DIV reg_a, reg_b (rule R73). -/
def execDiv (a b : Byte) (s : State) : Result := aluBinary aluDiv a b s

/-- MOD reg_a, reg_b (rule R74). -/
def execMod (a b : Byte) (s : State) : Result := aluBinary aluMod a b s

/-- INC reg_a (rule R75). -/
def execInc (a : Byte) (s : State) : Result := aluUnary aluInc a s

/-- DEC reg_a (rule R76). -/
def execDec (a : Byte) (s : State) : Result := aluUnary aluDec a s

/-- CMP reg_a, reg_b: FL is written, no register is (rule R77). -/
def execCmp (a b : Byte) (s : State) : Result :=
  twoRegs a b s fun i j =>
    .ok (advance 2 { s with fl := compareFlags (readReg s i) (readReg s j) })

/-- AND reg_a, reg_b (rule R78). -/
def execAnd (a b : Byte) (s : State) : Result := aluBinary (fun x y => .ok (x &&& y)) a b s

/-- OR reg_a, reg_b (rule R79). -/
def execOr (a b : Byte) (s : State) : Result := aluBinary (fun x y => .ok (x ||| y)) a b s

/-- XOR reg_a, reg_b (rule R80). -/
def execXor (a b : Byte) (s : State) : Result := aluBinary (fun x y => .ok (x ^^^ y)) a b s

/-- NOT reg_a (rule R81). -/
def execNot (a : Byte) (s : State) : Result := aluUnary (fun x => ~~~x) a s

/-- SHL reg_a, reg_b: value and amount are both reg_b's, reg_a is not read (rule R82). -/
def execShl (a b : Byte) (s : State) : Result := aluBinary (fun _ y => .ok (aluShl y)) a b s

/-- SHR reg_a, reg_b: value and amount are both reg_b's, reg_a is not read (rule R83). -/
def execShr (a b : Byte) (s : State) : Result := aluBinary (fun _ y => .ok (aluShr y)) a b s

end Sys2Proof.Machine
end

