-- ==== Sys2Proof/Machine/ControlFlow.lean ====
section
/-! DEFINITION. The nine control-flow instructions (spec/41_control_flow.md). A taken transfer sets PC to the
target and nothing is added; a conditional jump that is not taken advances by 2 (rules R112, R145,
conflict C2). -/

namespace Sys2Proof.Machine

/-- CALL reg: the address after the operand byte is pushed and PC set to the register. A return address above
255 raises AddressOutOfRange before the push (rule R102, decision D24, log entry 17). -/
def execCall (r : Byte) (s : State) : Result :=
  oneReg r s fun i => do
    let ret := s.pc.toNat + 2
    if ret > 255 then .error (.addressOutOfRange ret)
    else do
      let t ← push (wrap8 ret) s
      .ok (setPc (zext9 (readReg s i)) t)

/-- RET: PC is set to the popped byte (rule R103). -/
def execRet (s : State) : Result :=
  commit s do
    let (v, t) ← pop s
    .ok (setPc (zext9 v) t)

/-- JMP reg (rule R104). -/
def execJmp (r : Byte) (s : State) : Result :=
  oneReg r s fun i => .ok (setPc (zext9 (readReg s i)) s)

/-- A jump under a condition on FL: PC is the register's content, or advances by 2. The register index is
checked either way (rule R143). -/
def jumpIf (cond : BitVec 3 → Bool) (r : Byte) (s : State) : Result :=
  oneReg r s fun i => .ok (if cond s.fl then setPc (zext9 (readReg s i)) s else advance 1 s)

/-- JEQ reg (rule R105). -/
def execJeq (r : Byte) (s : State) : Result := jumpIf condEq r s

/-- JNE reg (rule R106). -/
def execJne (r : Byte) (s : State) : Result := jumpIf condNe r s

/-- JGT reg (rule R107). -/
def execJgt (r : Byte) (s : State) : Result := jumpIf condGt r s

/-- JLT reg (rule R108). -/
def execJlt (r : Byte) (s : State) : Result := jumpIf condLt r s

/-- JLE reg (rule R109). -/
def execJle (r : Byte) (s : State) : Result := jumpIf condLe r s

/-- JGE reg (rule R110). -/
def execJge (r : Byte) (s : State) : Result := jumpIf condGe r s

end Sys2Proof.Machine
end

