-- ==== Sys2Proof/Machine/Other.lean ====
section
/-! DEFINITION. The nine other instructions (spec/42_other.md). All complete by the sequential advance, HLT
included. -/

namespace Sys2Proof.Machine

/-- NOP: no effect but the advance (rule R120). -/
def execNop (s : State) : Result := .next (advance 0 s)

/-- HLT: the run ends with cause None; PC goes just past HLT (rule R121, conflict C11). -/
def execHlt (s : State) : Result := .next (advance 0 (halt s))

/-- LDI reg, immediate: the second byte unchanged, never checked as a register index (rule R122). -/
def execLdi (r imm : Byte) (s : State) : Result :=
  oneReg r s fun i => .ok (advance 2 (writeReg i imm s))

/-- LD reg_a, reg_b: reg_b holds the address (rule R123). -/
def execLd (a b : Byte) (s : State) : Result :=
  twoRegs a b s fun i j => do
    let v ← memRead s.mem (regAddr s j)
    .ok (advance 2 (writeReg i v s))

/-- ST reg_a, reg_b: reg_a holds the address, reg_b the data (rule R124). -/
def execSt (a b : Byte) (s : State) : Result :=
  twoRegs a b s fun i j => do
    let mem' ← memWrite s.mem (regAddr s i) (readReg s j)
    .ok (advance 2 { s with mem := mem' })

/-- PUSH reg (rule R125). -/
def execPush (r : Byte) (s : State) : Result :=
  oneReg r s fun i => do
    let t ← push (readReg s i) s
    .ok (advance 1 t)

/-- POP reg (rule R126). -/
def execPop (r : Byte) (s : State) : Result :=
  oneReg r s fun i => do
    let (v, t) ← pop s
    .ok (advance 1 (writeReg i v t))

/-- PRN reg: the signed reading (rule R127, decision D13). -/
def execPrn (r : Byte) (s : State) : Result :=
  oneReg r s fun i => .ok (advance 1 (emit (.dec (readReg s i).toInt) s))

/-- PRA reg: the code point is the unsigned reading (rule R128, decision D23). -/
def execPra (r : Byte) (s : State) : Result :=
  oneReg r s fun i => .ok (advance 1 (emit (.chr (readReg s i).toNat) s))

end Sys2Proof.Machine
end

