-- ==== Sys2Proof/WellFormed.lean ====
section
/-! DEFINITION. Which instructions have legal operands: every register byte is an index 0..7
(spec/30_encoding.md rule R53, spec/43_executor.md rule R143). -/

namespace Sys2Proof

/-- The operand bytes that are register indices, in operand order. LDI's immediate is not one
(rule R143). -/
def Instr.regOperands : Instr → List Byte
  | .nop => []
  | .hlt => []
  | .ret => []
  | .ldi r _ => [r]
  | .push r => [r]
  | .pop r => [r]
  | .prn r => [r]
  | .pra r => [r]
  | .call r => [r]
  | .jmp r => [r]
  | .jeq r => [r]
  | .jne r => [r]
  | .jgt r => [r]
  | .jlt r => [r]
  | .jle r => [r]
  | .jge r => [r]
  | .inc r => [r]
  | .dec r => [r]
  | .not r => [r]
  | .ld a b => [a, b]
  | .st a b => [a, b]
  | .add a b => [a, b]
  | .sub a b => [a, b]
  | .mul a b => [a, b]
  | .div a b => [a, b]
  | .mod a b => [a, b]
  | .cmp a b => [a, b]
  | .and a b => [a, b]
  | .or a b => [a, b]
  | .xor a b => [a, b]
  | .shl a b => [a, b]
  | .shr a b => [a, b]

/-- Every register operand is an index 0..7. -/
def Instr.wellFormed (i : Instr) : Bool :=
  i.regOperands.all fun r => r.toNat < Config.numRegs

/-- The operand byte that names the register of index `r`. -/
def regByte (r : Fin 8) : Byte := BitVec.ofNat 8 r.val

end Sys2Proof
end

