-- ==== Sys2Proof/Decode.lean ====
section
/-! DEFINITION. The opcode map, the decoder and the encoder (spec/30_encoding.md rules R50 to R59,
spec/43_executor.md rule R142).

The opcode numerals are decision D1 of the spec, from general knowledge (UNVERIFIED, log entry 9:
unsafe); the whole byte is matched (decision D12, log entry 22). -/

namespace Sys2Proof

/-! ## The opcode map (rule R56) -/

/-- What an opcode stands for: how many operand bytes follow and the instruction they make. -/
inductive OpcodeEntry where
  | z (i : Instr)
  | r (make : Byte → Instr)
  | rr (make : Byte → Byte → Instr)
  | ri (make : Byte → Byte → Instr)

/-- The rows of category Other. -/
def otherRows : List (Byte × OpcodeEntry) :=
  [(0b00000000#8, .z .nop), (0b00000001#8, .z .hlt), (0b01000101#8, .r .push), (0b01000110#8, .r .pop),
   (0b01000111#8, .r .prn), (0b01001000#8, .r .pra), (0b10000010#8, .ri .ldi), (0b10000011#8, .rr .ld),
   (0b10000100#8, .rr .st)]

/-- The rows of category ControlFlow. -/
def controlFlowRows : List (Byte × OpcodeEntry) :=
  [(0b00010001#8, .z .ret), (0b01010000#8, .r .call), (0b01010100#8, .r .jmp), (0b01010101#8, .r .jeq),
   (0b01010110#8, .r .jne), (0b01010111#8, .r .jgt), (0b01011000#8, .r .jlt), (0b01011001#8, .r .jle),
   (0b01011010#8, .r .jge)]

/-- The rows of category ArithmeticLogic. -/
def aluRows : List (Byte × OpcodeEntry) :=
  [(0b01100101#8, .r .inc), (0b01100110#8, .r .dec), (0b01101001#8, .r .not), (0b10100000#8, .rr .add),
   (0b10100001#8, .rr .sub), (0b10100010#8, .rr .mul), (0b10100011#8, .rr .div), (0b10100100#8, .rr .mod),
   (0b10100111#8, .rr .cmp), (0b10101000#8, .rr .and), (0b10101010#8, .rr .or), (0b10101011#8, .rr .xor),
   (0b10101100#8, .rr .shl), (0b10101101#8, .rr .shr)]

/-- The complete opcode map. -/
def opcodeTable : List (Byte × OpcodeEntry) := otherRows ++ controlFlowRows ++ aluRows

/-- The decode function of rule R55: the entry whose opcode equals the whole byte, or none (invalid). -/
def decodeOpcode (op : Byte) : Option OpcodeEntry :=
  (opcodeTable.find? fun row => row.1 == op).map Prod.snd

/-! ## Fields of the opcode byte (rule R51) -/

/-- NOPS, bits 7:6: the operand count. -/
def opcodeNops (op : Byte) : Nat := (op.extractLsb' 6 2).toNat

/-- A, bit 5: the ArithmeticLogic mark. -/
def opcodeA (op : Byte) : Bool := op.getLsbD 5

/-- C, bit 4: the ControlFlow mark. -/
def opcodeC (op : Byte) : Bool := op.getLsbD 4

/-- ID, bits 3:0: the mnemonic within its category. -/
def opcodeId (op : Byte) : Nat := (op.extractLsb' 0 4).toNat

/-- The category the marks A and C say (rule R52); no valid opcode has both. -/
def opcodeCategory (op : Byte) : Option Category :=
  match opcodeA op, opcodeC op with
  | true, false => some .arithmeticLogic
  | false, true => some .controlFlow
  | false, false => some .other
  | true, true => none

/-! ## Reading an instruction (rules R142, R147) -/

/-- Read one instruction from a source of bytes: byte 0 is the opcode; an opcode of no entry is invalid, and
then no operand byte is read; then byte 1 and byte 2 as far as the entry has operands, in that order. A byte
the source does not have ends the reading with the source's own error. -/
def readInstr {ε : Type} (byteAt : Nat → Except ε Byte) (invalid : Byte → ε) : Except ε Instr := do
  let op ← byteAt 0
  match decodeOpcode op with
  | none => .error (invalid op)
  | some (.z i) => .ok i
  | some (.r make) => do
    let b1 ← byteAt 1
    .ok (make b1)
  | some (.rr make) => do
    let b1 ← byteAt 1
    let b2 ← byteAt 2
    .ok (make b1 b2)
  | some (.ri make) => do
    let b1 ← byteAt 1
    let b2 ← byteAt 2
    .ok (make b1 b2)

/-- Why a list of bytes does not begin with an instruction. -/
inductive DecodeError where
  /-- The first byte is an opcode of no entry (rule R57). -/
  | invalidOpcode (op : Byte)
  /-- The list ends before byte `k` of the instruction. -/
  | missingByte (k : Nat)
  deriving DecidableEq, Repr

/-- Byte `k` of a list, or its absence by name. -/
def listByte (bytes : List Byte) (k : Nat) : Except DecodeError Byte :=
  match bytes[k]? with
  | some b => .ok b
  | none => .error (.missingByte k)

/-! ## The encoder -/

/-- The opcode byte of an instruction (the hexadecimal column of rule R56). -/
def Instr.opcode : Instr → Byte
  | .nop => 0x00
  | .hlt => 0x01
  | .ret => 0x11
  | .push _ => 0x45
  | .pop _ => 0x46
  | .prn _ => 0x47
  | .pra _ => 0x48
  | .call _ => 0x50
  | .jmp _ => 0x54
  | .jeq _ => 0x55
  | .jne _ => 0x56
  | .jgt _ => 0x57
  | .jlt _ => 0x58
  | .jle _ => 0x59
  | .jge _ => 0x5A
  | .inc _ => 0x65
  | .dec _ => 0x66
  | .not _ => 0x69
  | .ldi _ _ => 0x82
  | .ld _ _ => 0x83
  | .st _ _ => 0x84
  | .add _ _ => 0xA0
  | .sub _ _ => 0xA1
  | .mul _ _ => 0xA2
  | .div _ _ => 0xA3
  | .mod _ _ => 0xA4
  | .cmp _ _ => 0xA7
  | .and _ _ => 0xA8
  | .or _ _ => 0xAA
  | .xor _ _ => 0xAB
  | .shl _ _ => 0xAC
  | .shr _ _ => 0xAD

/-- The operand bytes, in the order of the text form and of memory (rule R60). Only LDI has a byte that is no
register index. -/
def Instr.operandBytes : Instr → List Byte
  | .ldi r imm => [r, imm]
  | i => i.regOperands

/-- The bytes of an instruction, the one at the lowest address first (rules R32, R50). -/
def encode (i : Instr) : List Byte := i.opcode :: i.operandBytes

/-- The operand count `n` of rule R145. -/
def Instr.operandCount (i : Instr) : Nat := i.operandBytes.length

/-- How many bytes an instruction has: 1, 2 or 3 (rule R50). -/
def Instr.length (i : Instr) : Nat := i.operandCount + 1

/-- The format of an instruction (rule R50). -/
def Instr.format : Instr → Format
  | .ldi _ _ => .ri
  | i =>
    match i.operandCount with
    | 0 => .z
    | 1 => .r
    | _ => .rr

/-- The category of an instruction: the section of the source that lists it (rules R52, R56). -/
def Instr.category : Instr → Category
  | .nop => .other
  | .hlt => .other
  | .ldi _ _ => .other
  | .ld _ _ => .other
  | .st _ _ => .other
  | .push _ => .other
  | .pop _ => .other
  | .prn _ => .other
  | .pra _ => .other
  | .call _ => .controlFlow
  | .ret => .controlFlow
  | .jmp _ => .controlFlow
  | .jeq _ => .controlFlow
  | .jne _ => .controlFlow
  | .jgt _ => .controlFlow
  | .jlt _ => .controlFlow
  | .jle _ => .controlFlow
  | .jge _ => .controlFlow
  | .add _ _ => .arithmeticLogic
  | .sub _ _ => .arithmeticLogic
  | .mul _ _ => .arithmeticLogic
  | .div _ _ => .arithmeticLogic
  | .mod _ _ => .arithmeticLogic
  | .inc _ => .arithmeticLogic
  | .dec _ => .arithmeticLogic
  | .cmp _ _ => .arithmeticLogic
  | .and _ _ => .arithmeticLogic
  | .or _ _ => .arithmeticLogic
  | .xor _ _ => .arithmeticLogic
  | .not _ => .arithmeticLogic
  | .shl _ _ => .arithmeticLogic
  | .shr _ _ => .arithmeticLogic

/-! ## The decoder -/

/-- The decoder: the instruction the bytes begin with and the bytes after it. It is total and refuses by
name. -/
def decode (bytes : List Byte) : Except DecodeError (Instr × List Byte) := do
  let i ← readInstr (listByte bytes) .invalidOpcode
  .ok (i, bytes.drop i.length)

/-- The bytes of an instruction given as one number of `nbits` bits, bit 0 the least significant bit of the
first byte; the bits above are 0, up to the longest instruction, which has 3 bytes. -/
def tableBytes (nbits w : Nat) : List Byte :=
  let v := w % 2 ^ nbits
  [BitVec.ofNat 8 v, BitVec.ofNat 8 (v / 2 ^ 8), BitVec.ofNat 8 (v / 2 ^ 16)]

/-- The instruction the decoder reads from such a number. -/
def decodeTableWord (nbits w : Nat) : Option Instr :=
  match decode (tableBytes nbits w) with
  | .ok (i, _) => some i
  | .error _ => none

/-! ## Text form (rule R60) -/

/-- The mnemonic of an instruction. -/
def Instr.mnemonic : Instr → String
  | .nop => "NOP"
  | .hlt => "HLT"
  | .ret => "RET"
  | .push _ => "PUSH"
  | .pop _ => "POP"
  | .prn _ => "PRN"
  | .pra _ => "PRA"
  | .call _ => "CALL"
  | .jmp _ => "JMP"
  | .jeq _ => "JEQ"
  | .jne _ => "JNE"
  | .jgt _ => "JGT"
  | .jlt _ => "JLT"
  | .jle _ => "JLE"
  | .jge _ => "JGE"
  | .inc _ => "INC"
  | .dec _ => "DEC"
  | .not _ => "NOT"
  | .ldi _ _ => "LDI"
  | .ld _ _ => "LD"
  | .st _ _ => "ST"
  | .add _ _ => "ADD"
  | .sub _ _ => "SUB"
  | .mul _ _ => "MUL"
  | .div _ _ => "DIV"
  | .mod _ _ => "MOD"
  | .cmp _ _ => "CMP"
  | .and _ _ => "AND"
  | .or _ _ => "OR"
  | .xor _ _ => "XOR"
  | .shl _ _ => "SHL"
  | .shr _ _ => "SHR"

/-- A register operand in the text form: `R` and its index. -/
def regText (r : Byte) : String := "R" ++ toString r.toNat

/-- The text form: the mnemonic, then the operands in byte order; the immediate is a decimal number. -/
def Instr.text : Instr → String
  | .ldi r imm => "LDI " ++ regText r ++ "," ++ toString imm.toNat
  | i =>
    match i.regOperands with
    | [] => i.mnemonic
    | rs => i.mnemonic ++ " " ++ String.intercalate "," (rs.map regText)

end Sys2Proof
end

