-- ==== Sys2Proof/Machine/Fetch.lean ====
section
/-! DEFINITION. Fetching the next instruction, and placing bytes from outside: one instruction at PC, or a
program from address 0 (spec/43_executor.md rules R141, R142, R147; spec/70_reset_and_hazards.md
rule R194). -/

namespace Sys2Proof.Machine

/-- Fetch, decode and operand fetch: the opcode at PC, then the operand bytes at PC+1 and PC+2, each a memory
read that raises AddressOutOfRange past the last cell; an opcode of no entry raises InvalidOpcode before any
operand byte is read. -/
def fetchInstr (s : State) : Except FatalError Instr :=
  readInstr (fun k => memRead s.mem (s.pc.toNat + k)) .invalidOpcode

/-- Write bytes at ascending addresses from `addr`; a byte whose address does not exist is dropped. -/
def placeBytes : List Byte → Nat → Memory → Memory
  | [], _, m => m
  | b :: bs, addr, m => placeBytes bs (addr + 1) (if addr < Config.memSize then m.write addr b else m)

/-- The loader's contract (rule R194): the bytes go to LOAD_BASE and up, in order, and nothing else changes.
More bytes than there are cells are refused before the run (decision D26, log entry 19). -/
def load (bytes : List Byte) (s : State) : Option State :=
  if bytes.length ≤ Config.memSize then some { s with mem := placeBytes bytes Config.loadBase s.mem } else none

end Sys2Proof.Machine
end

