-- ==== Sys2Proof/Machine/Step.lean ====
section
/-! DEFINITION. The step function: one instruction, atomically (spec/43_executor.md rules R140, R147). -/

namespace Sys2Proof.Machine

/-- One step. It is defined exactly for Running states (rule R140; from Halted: log entry 2). -/
def step (s : State) : Host.Outcome State Fault Refusal :=
  match s.run with
  | .halted => .fault .halted
  | .running =>
    match fetchInstr s with
    | .error e => .next (raise e s)
    | .ok i => exec i s

/-- `s` with one instruction, given as a number of `nbits` bits, placed where the next step fetches: at PC.
It stands for the load from outside (log entries 18 and 21). -/
def State.withFetchWord (s : State) (nbits w : Nat) : State :=
  { s with mem := placeBytes (tableBytes nbits w) s.pc.toNat s.mem }

end Sys2Proof.Machine
end

