-- ==== Sys2Proof/Machine/Run.lean ====
section
/-! DEFINITION. A run: the iteration of the step until Halted (spec/43_executor.md rule R149,
spec/00_scope.md rule R9). -/

namespace Sys2Proof.Machine

/-- At most `k` steps of a run; a state from which there is no step is the end of the run and stays as it is
(rule R174). -/
def runSteps : Nat → State → State
  | 0, s => s
  | k + 1, s =>
    match step s with
    | .next t => runSteps k t
    | .fault _ => s
    | .refused _ => s

end Sys2Proof.Machine
end

