-- ==== Sys2Proof/Safety.lean ====
section
/-! DEFINITION. What every state of a run satisfies, and what a good end of a run is (spec/10_state.md
rule R24, spec/00_scope.md rule R9, spec/60_exceptions.md rule R170). -/

namespace Sys2Proof.Machine

/-- The values an output event can carry (rule R20). -/
def OutEvent.inRange : OutEvent → Bool
  | .dec n => decide (-128 ≤ n ∧ n ≤ 127)
  | .chr c => decide (c ≤ 255)

/-- At most one of L, G, E is set (rules R16, R24). -/
abbrev AtMostOneFlag (fl : BitVec 3) : Prop := fl = 0b000 ∨ fl = 0b001 ∨ fl = 0b010 ∨ fl = 0b100

/-- The invariant of rule R24, with the canonical form of memory and the range of the output events. -/
structure State.Inv (s : State) : Prop where
  pc_le : s.pc.toNat ≤ 256
  sp_le : s.sp.toNat ≤ Config.spInit.toNat
  flags : AtMostOneFlag s.fl
  err_none : s.run = .running → s.err = none
  mem_wf : s.mem.wf = true
  out_range : ∀ e ∈ s.out, e.inRange = true

/-- The normal end of a run: HLT, not a fatal error (rules R9, R170). -/
def State.endedNormally (s : State) : Bool := decide (s.run = .halted) && decide (s.err = none)

end Sys2Proof.Machine
end

