-- ==== Sys2Proof/Certificates/Slice0/Obligations.lean ====
section
/-! DEFINITION. The statements for the provers, made from the numbered rules of spec/.

Each is about states and instructions, never about a program. Register operands are written `regByte r` for
`r : Fin 8`, so a statement about an instruction holds for every register the encoding admits; the other operand
bytes are the subject of `BadRegisterIndexIsTakenFirst`. Where a clause rests on one of the spec's own decisions
(spec/92_eei_decisions.md) the docstring names it: D4 is log entry 6, D13 is 10, D15 is 14, D18, D19 and D27
are 16, D24 is 17. Every numeral of the encodings is decision D1, and the width of a register, with
wrap-around, decisions D2 and D3 (log entries 9 and 10). -/

open Sys2Proof Sys2Proof.Machine

namespace Sys2Proof.Claims

/-- The valid opcode bytes, as rule R57 lists them. -/
def validOpcodes : List Byte :=
  [0x00, 0x01, 0x11, 0x45, 0x46, 0x47, 0x48, 0x50, 0x54, 0x55, 0x56, 0x57, 0x58, 0x59, 0x5A, 0x65] ++
    [0x66, 0x69, 0x82, 0x83, 0x84, 0xA0, 0xA1, 0xA2, 0xA3, 0xA4, 0xA7, 0xA8, 0xAA, 0xAB, 0xAC, 0xAD]

/-- The bytes from PC to the top of memory. -/
def bytesAtPc (s : State) : List Byte :=
  (List.range (256 - s.pc.toNat)).map fun k => s.mem.read (s.pc.toNat + k)

/-- The column "reads" of rule R11's table. -/
def reads : Instr → List Byte
  | .add a b => [a, b]
  | .sub a b => [a, b]
  | .mul a b => [a, b]
  | .div a b => [a, b]
  | .mod a b => [a, b]
  | .and a b => [a, b]
  | .or a b => [a, b]
  | .xor a b => [a, b]
  | .cmp a b => [a, b]
  | .st a b => [a, b]
  | .shl _ b => [b]
  | .shr _ b => [b]
  | .ld _ b => [b]
  | .inc a => [a]
  | .dec a => [a]
  | .not a => [a]
  | .call r => [r]
  | .jmp r => [r]
  | .jeq r => [r]
  | .jne r => [r]
  | .jgt r => [r]
  | .jlt r => [r]
  | .jle r => [r]
  | .jge r => [r]
  | .push r => [r]
  | .prn r => [r]
  | .pra r => [r]
  | .ret => []
  | .nop => []
  | .hlt => []
  | .ldi _ _ => []
  | .pop _ => []

/-- The column "writes" of rule R11's table. -/
def writes : Instr → List Byte
  | .add a _ => [a]
  | .sub a _ => [a]
  | .mul a _ => [a]
  | .div a _ => [a]
  | .mod a _ => [a]
  | .and a _ => [a]
  | .or a _ => [a]
  | .xor a _ => [a]
  | .shl a _ => [a]
  | .shr a _ => [a]
  | .ld a _ => [a]
  | .inc a => [a]
  | .dec a => [a]
  | .not a => [a]
  | .ldi r _ => [r]
  | .pop r => [r]
  | .cmp _ _ => []
  | .st _ _ => []
  | .call _ => []
  | .jmp _ => []
  | .jeq _ => []
  | .jne _ => []
  | .jgt _ => []
  | .jlt _ => []
  | .jle _ => []
  | .jge _ => []
  | .push _ => []
  | .prn _ => []
  | .pra _ => []
  | .ret => []
  | .nop => []
  | .hlt => []

/-- The one cell an instruction writes (rule R41's table), by the functions its meaning uses. -/
def storeAddr (i : Instr) (s : State) : Option Nat :=
  match i with
  | .st a _ => (regIndex a).toOption.map (regAddr s)
  | .push _ => some (s.sp - 1).toNat
  | .call _ => some (s.sp - 1).toNat
  | .pop _ => some s.sp.toNat
  | .ret => some s.sp.toNat
  | .nop => none
  | .hlt => none
  | .ldi _ _ => none
  | .ld _ _ => none
  | .prn _ => none
  | .pra _ => none
  | .jmp _ => none
  | .jeq _ => none
  | .jne _ => none
  | .jgt _ => none
  | .jlt _ => none
  | .jle _ => none
  | .jge _ => none
  | .add _ _ => none
  | .sub _ _ => none
  | .mul _ _ => none
  | .div _ _ => none
  | .mod _ _ => none
  | .inc _ => none
  | .dec _ => none
  | .cmp _ _ => none
  | .and _ _ => none
  | .or _ _ => none
  | .xor _ _ => none
  | .not _ => none
  | .shl _ _ => none
  | .shr _ _ => none

/-- The content of the register a byte names, as a jump target. -/
def regTarget (r : Byte) (s : State) : Option PcWord :=
  (regIndex r).toOption.map fun i => s.regs[i].setWidth 9

/-- What an instruction sets PC to, if it sets PC itself (rules R102 to R110). -/
def jumpTarget (i : Instr) (s : State) : Option PcWord :=
  match i with
  | .call r => regTarget r s
  | .ret => some ((s.mem.read s.sp.toNat).setWidth 9)
  | .jmp r => regTarget r s
  | .jeq r => if flagE s.fl then regTarget r s else none
  | .jne r => if flagE s.fl then none else regTarget r s
  | .jgt r => if flagG s.fl then regTarget r s else none
  | .jlt r => if flagL s.fl then regTarget r s else none
  | .jle r => if flagE s.fl ∨ flagL s.fl then regTarget r s else none
  | .jge r => if flagE s.fl ∨ flagG s.fl then regTarget r s else none
  | .nop => none
  | .hlt => none
  | .ldi _ _ => none
  | .ld _ _ => none
  | .st _ _ => none
  | .push _ => none
  | .pop _ => none
  | .prn _ => none
  | .pra _ => none
  | .add _ _ => none
  | .sub _ _ => none
  | .mul _ _ => none
  | .div _ _ => none
  | .mod _ _ => none
  | .inc _ => none
  | .dec _ => none
  | .cmp _ _ => none
  | .and _ _ => none
  | .or _ _ => none
  | .xor _ _ => none
  | .not _ => none
  | .shl _ _ => none
  | .shr _ _ => none

/-- The instruction's own error, item 5 of rule R167. -/
def ownError (i : Instr) (s : State) : Option FatalError :=
  match i with
  | .div _ b => (regIndex b).toOption.bind fun j => if s.regs[j] = 0x00 then some .divideByZero else none
  | .mod _ b => (regIndex b).toOption.bind fun j => if s.regs[j] = 0x00 then some .divideByZero else none
  | .call _ =>
    if s.pc.toNat + 2 > 255 then some (.addressOutOfRange (s.pc.toNat + 2))
    else if s.sp = 0x00 then some .stackOverflow
    else none
  | .push _ => if s.sp = 0x00 then some .stackOverflow else none
  | .pop _ => if s.sp = Config.spInit then some .stackUnderflow else none
  | .ret => if s.sp = Config.spInit then some .stackUnderflow else none
  | .nop => none
  | .hlt => none
  | .ldi _ _ => none
  | .ld _ _ => none
  | .st _ _ => none
  | .prn _ => none
  | .pra _ => none
  | .jmp _ => none
  | .jeq _ => none
  | .jne _ => none
  | .jgt _ => none
  | .jlt _ => none
  | .jle _ => none
  | .jge _ => none
  | .add _ _ => none
  | .sub _ _ => none
  | .mul _ _ => none
  | .inc _ => none
  | .dec _ => none
  | .cmp _ _ => none
  | .and _ _ => none
  | .or _ _ => none
  | .xor _ _ => none
  | .not _ => none
  | .shl _ _ => none
  | .shr _ _ => none

/-- The events an instruction emits (rules R127, R128). -/
def events (i : Instr) (s : State) : List OutEvent :=
  match i with
  | .prn r => ((regIndex r).toOption.map fun j => OutEvent.dec s.regs[j].toInt).toList
  | .pra r => ((regIndex r).toOption.map fun j => OutEvent.chr s.regs[j].toNat).toList
  | .nop => []
  | .hlt => []
  | .ldi _ _ => []
  | .ld _ _ => []
  | .st _ _ => []
  | .push _ => []
  | .pop _ => []
  | .call _ => []
  | .ret => []
  | .jmp _ => []
  | .jeq _ => []
  | .jne _ => []
  | .jgt _ => []
  | .jlt _ => []
  | .jle _ => []
  | .jge _ => []
  | .add _ _ => []
  | .sub _ _ => []
  | .mul _ _ => []
  | .div _ _ => []
  | .mod _ _ => []
  | .inc _ => []
  | .dec _ => []
  | .cmp _ _ => []
  | .and _ _ => []
  | .or _ _ => []
  | .xor _ _ => []
  | .not _ => []
  | .shl _ _ => []
  | .shr _ _ => []

/-- `m'` is `m` with the one cell `addr` replaced by `v`; that the cell reads back needs the canonical form,
which is an invariant (`StepKeepsTheInvariant`). -/
def StoredOne (m m' : Memory) (addr : Nat) (v : Byte) : Prop :=
  (m.wf = true → m'.read addr = v) ∧ ∀ a, a ≠ addr → m'.read a = m.read a

/-- Push the values of a list, the first one first. -/
def pushAll : List Byte → State → Except FatalError State
  | [], s => .ok s
  | v :: vs, s => do
    let t ← push v s
    pushAll vs t

/-- Pop `n` values; the value popped first comes first. -/
def popMany : Nat → State → Except FatalError (List Byte × State)
  | 0, s => .ok ([], s)
  | n + 1, s => do
    let (v, t) ← pop s
    let (vs, u) ← popMany n t
    .ok (v :: vs, u)

end Sys2Proof.Claims

open Sys2Proof.Claims

/-! ## Reset and the invariant -/

/-- The state after reset is the table of rule R23 (R190). The numbers are decisions D5 to D9 of the spec (log
entries 11, 12, 13). -/
def Obligations.ResetIsTheResetTable : Prop :=
  (∀ r : Fin 8, State.reset.regs[r] = 0x00) ∧ State.reset.pc = 0 ∧ State.reset.sp = 0xF4 ∧
    State.reset.fl = 0b000 ∧ State.reset.run = .running ∧ State.reset.err = none ∧
    (∀ a, a < 256 → State.reset.mem.read a = 0x00) ∧ State.reset.out = []

/-- The invariant of rule R24 holds at reset. -/
def Obligations.ResetMeetsTheInvariant : Prop := State.reset.Inv

/-- Every step keeps the invariant of rule R24, from every state that meets it: PC at most 256, SP at most
SP_INIT, at most one flag, no cause while Running, canonical memory, output events in range. -/
def Obligations.StepKeepsTheInvariant : Prop := ∀ s t : State, s.Inv → step s = .next t → t.Inv

/-- Every state of every run from a loaded program meets the invariant (rules R24, R149, R194). -/
def Obligations.EveryRunStateMeetsTheInvariant : Prop :=
  ∀ (bytes : List Byte) (s : State) (k : Nat), load bytes State.reset = some s → (runSteps k s).Inv

/-! ## Encoding -/

/-- The decoder gives back every instruction from its bytes, whatever follows them, with every operand at every
value of its byte: the well-formed instructions, and those whose register byte is no index (that check comes
after decoding, rule R143). -/
def Obligations.DecodeOfEncodeIsTheInstruction : Prop :=
  ∀ (i : Instr) (rest : List Byte), decode (encode i ++ rest) = .ok (i, rest)

/-- The other direction: the bytes the decoder reads an instruction from are that instruction's encoding. -/
def Obligations.DecodedBytesAreTheEncoding : Prop :=
  ∀ (bytes : List Byte) (i : Instr) (rest : List Byte), decode bytes = .ok (i, rest) → bytes = encode i ++ rest

/-- Words of the map of rule R56 decode to the instructions they stand for (sanity; decision D1). -/
def Obligations.SomeWordsDecodeAsTheMapSays : Prop :=
  decode [0b10100000, 0x00, 0x01] = .ok (.add 0x00 0x01, []) ∧
    decode [0b10000010, 0x07, 0xFF] = .ok (.ldi 0x07 0xFF, []) ∧
    decode [0b10000100, 0x00, 0x01] = .ok (.st 0x00 0x01, []) ∧
    decode [0b01010000, 0x01] = .ok (.call 0x01, []) ∧
    decode [0b00010001, 0x22] = .ok (.ret, [0x22]) ∧
    decode [0b01101001, 0x02] = .ok (.not 0x02, [])

/-- Exactly the 32 listed bytes are opcodes: any other first byte is an invalid opcode whatever follows, and each
listed byte with two bytes after it decodes (rules R55, R57; decision D12). -/
def Obligations.OnlyTheListedBytesAreOpcodes : Prop :=
  validOpcodes.Nodup ∧ validOpcodes.length = 32 ∧
    (∀ (op : Byte) (rest : List Byte), op ∉ validOpcodes → decode (op :: rest) = .error (.invalidOpcode op)) ∧
    ∀ (op b1 b2 : Byte) (rest : List Byte), op ∈ validOpcodes →
      ∃ i rest', decode (op :: b1 :: b2 :: rest) = .ok (i, rest')

/-- No two mnemonics share an opcode byte, and the bytes 0x52 and 0x13 are invalid (rule R58; decision D11). -/
def Obligations.OneMnemonicPerOpcodeByte : Prop :=
  (∀ i j : Instr, i.opcode = j.opcode → i.mnemonic = j.mnemonic) ∧
    decodeOpcode 0x52 = none ∧ decodeOpcode 0x13 = none

/-! ## The step -/

/-- When the bytes at PC decode to an instruction, a Running step is that instruction's execution: no more is
added around it, since each meaning makes its own PC update (rules R145, R147). -/
def Obligations.StepRunsTheDecodedInstruction : Prop :=
  ∀ (s : State) (i : Instr) (rest : List Byte), s.run = .running → decode (bytesAtPc s) = .ok (i, rest) →
    step s = exec i s

/-- The instruction placed from outside at PC is the one the very next step runs (the model's interface, log
entries 18 and 21). -/
def Obligations.PlacedInstructionRunsNext : Prop :=
  ∀ (s : State) (nbits w : Nat) (i : Instr), s.run = .running → s.mem.wf = true → s.pc.toNat + 3 ≤ 256 →
    decodeTableWord nbits w = some i → step (s.withFetchWord nbits w) = exec i (s.withFetchWord nbits w)

/-- Fetching at 256 is the fatal error AddressOutOfRange(256) and changes nothing else; from 0..255 the fetch
reads the cell (rules R141, R166; decisions D4, D18). -/
def Obligations.OpcodeFetchAboveMemoryIsFatal : Prop :=
  (∀ s : State, s.run = .running → s.pc = 256 →
    step s = .next { s with run := .halted, err := some (.addressOutOfRange 256) }) ∧
    ∀ s : State, s.pc.toNat < 256 → memRead s.mem s.pc.toNat = .ok (s.mem.read s.pc.toNat)

/-- A byte at PC that is none of the 32 opcodes ends the run with InvalidOpcode and changes nothing else, the byte
at 255 included, so before any operand byte is read (rule R161). That the cause records the byte is the model's
choice (decision D20 lets the info be dropped; log entry 5); that SP, FL and the output too are unchanged is
decision D18 (log entry 16). -/
def Obligations.InvalidOpcodeIsFatal : Prop :=
  ∀ s : State, s.run = .running → s.pc.toNat < 256 → s.mem.read s.pc.toNat ∉ validOpcodes →
    step s = .next { s with run := .halted, err := some (.invalidOpcode (s.mem.read s.pc.toNat)) }

/-- An instruction that straddles the top of memory ends the run with AddressOutOfRange(256), before its register
bytes are checked (rules R142, R165b; the order is decision D19). -/
def Obligations.OperandFetchAboveMemoryIsFatal : Prop :=
  ∀ (s : State) (i : Instr), s.run = .running → s.pc.toNat < 256 → s.mem.read s.pc.toNat = i.opcode →
    s.pc.toNat + i.operandCount > 255 →
    step s = .next { s with run := .halted, err := some (.addressOutOfRange 256) }

/-- A register byte above 7 is AddressOutOfRange of that byte, the first such operand first, before the
instruction's own errors and effects, for every instruction and also for a jump that would not be taken (rules
R53, R143; decisions D19, D27). -/
def Obligations.BadRegisterIndexIsTakenFirst : Prop :=
  ∀ (i : Instr) (s : State) (before after : List Byte) (r : Byte), i.regOperands = before ++ r :: after →
    (∀ q ∈ before, q.toNat < 8) → 8 ≤ r.toNat →
    exec i s = .next { s with run := .halted, err := some (.addressOutOfRange r.toNat) }

/-- The instruction's own error is taken as rule R166 says: Halted, the cause, nothing else. The causes are
DivideByZero, CALL's return address, StackOverflow, StackUnderflow in the order of rule R167, item 5
(decisions D15, D18, D19, D24). -/
def Obligations.OwnErrorIsTaken : Prop :=
  ∀ (i : Instr) (s : State) (e : FatalError), i.wellFormed = true → ownError i s = some e →
    exec i s = .next { s with run := .halted, err := some e }

/-- Every well-formed instruction without an error of its own completes, and PC is then its target if it sets PC
itself, and `pc + n + 1` otherwise, never both (rule R145). -/
def Obligations.PcIsTheTargetOrTheAdvance : Prop :=
  ∀ (i : Instr) (s : State), i.wellFormed = true → ownError i s = none →
    ∃ t, exec i s = .next t ∧ t.pc = (jumpTarget i s).getD (s.pc + BitVec.ofNat 9 (i.operandCount + 1))

/-- A step that ends in a fatal error leaves everything but the run state and the cause as it was (rules R146,
R166, R24; decision D18). No cause stands while Running: that is part of the invariant. -/
def Obligations.FatalErrorChangesOnlyRunAndCause : Prop :=
  ∀ s t : State, s.err = none → step s = .next t → t.err ≠ none →
    t = { s with run := .halted, err := t.err }

/-- A Running core always has a next state (rule R201). -/
def Obligations.RunningCoreAlwaysSteps : Prop :=
  ∀ s : State, s.run = .running → ∃ t, step s = .next t

/-- From Halted there is no step, and a run stays in that state (rules R140, R174; decision D25, log entry 2). -/
def Obligations.HaltedTakesNoStep : Prop :=
  ∀ s : State, s.run = .halted → step s = .fault .halted ∧ ∀ k, runSteps k s = s

/-- A step ends the run exactly by HLT, with cause None, or by a fatal error, with a cause; and Halted is
terminal (rule R9). That no cause stands before the step is part of the invariant. -/
def Obligations.RunEndsByHltOrFatalErrorOnly : Prop :=
  (∀ s t : State, s.err = none → step s = .next t →
    (t.run = .halted ↔ (t.err = none ∧ s.pc.toNat < 256 ∧ s.mem.read s.pc.toNat = Instr.hlt.opcode) ∨
      t.err ≠ none)) ∧
    ∀ s t : State, s.run = .halted → step s ≠ .next t

/-- A store is seen by the very next fetch: after an ST to the address just past itself, the next opcode is the
byte stored (rule R39; decision D17). The two clauses show it by a stored HLT and by a stored invalid byte. -/
def Obligations.StoreIsSeenByTheNextFetch : Prop :=
  ∀ (s : State) (a b : Fin 8) (rest : List Byte), s.run = .running → s.mem.wf = true →
    decode (bytesAtPc s) = .ok (.st (regByte a) (regByte b), rest) → s.regs[a].toNat = s.pc.toNat + 3 →
    ∃ t, step s = .next t ∧
      (s.regs[b] = Instr.hlt.opcode → step t = .next { t with run := .halted, err := none, pc := s.pc + 4 }) ∧
      (s.regs[b] ∉ validOpcodes →
        step t = .next { t with run := .halted, err := some (.invalidOpcode s.regs[b]) })

/-- A Running core whose cells from PC up are all zero executes NOPs to the top of memory and ends with
AddressOutOfRange(256) (rules R120, R149, R194). -/
def Obligations.RunningThroughZerosEndsAtTheTop : Prop :=
  ∀ s : State, s.run = .running → s.pc.toNat ≤ 256 →
    (∀ a, s.pc.toNat ≤ a → a < 256 → s.mem.read a = 0x00) →
    runSteps (257 - s.pc.toNat) s =
      { s with pc := 256, run := .halted, err := some (.addressOutOfRange 256) }

/-- The loader places byte `k` at address `k`, leaves every other cell at its reset value, touches nothing else,
and refuses more than 256 bytes (rule R194; decisions D9, D26, log entry 19). -/
def Obligations.LoaderPlacesTheProgram : Prop :=
  ∀ bytes : List Byte,
    (bytes.length ≤ 256 → ∃ t, load bytes State.reset = some t ∧ t = { State.reset with mem := t.mem } ∧
      (∀ (k : Nat) (h : k < bytes.length), t.mem.read k = bytes[k]) ∧
      ∀ a, bytes.length ≤ a → t.mem.read a = 0x00) ∧
    (256 < bytes.length → load bytes State.reset = none)

/-! ## Memory and the stack primitives -/

/-- `MemRead` gives the content of a cell and `MemWrite` replaces all 8 bits of one cell and nothing else
(rule R30). The canonical form of the list, asked for before and kept after, is the model's own representation
(log entry 24). -/
def Obligations.MemoryReadsBackWhatWasWritten : Prop :=
  ∀ (m : Memory) (addr : Nat) (v : Byte), m.wf = true → addr < 256 →
    memRead m addr = .ok (m.read addr) ∧
    ∃ m', memWrite m addr v = .ok m' ∧ m'.wf = true ∧ memRead m' addr = .ok v ∧
      ∀ b, b ≠ addr → memRead m' b = memRead m b

/-- The canonical form is canonical: two memories in it that hold the same bytes are equal (the model's
representation of rule R17). -/
def Obligations.CanonicalMemoriesWithEqualCellsAreEqual : Prop :=
  ∀ m m' : Memory, m.wf = true → m'.wf = true → (∀ a, a < 256 → m.read a = m'.read a) → m = m'

/-- `push`: StackOverflow at SP = 0 and nothing changed; otherwise SP is decremented and the cell at the new SP
written (rule R100). -/
def Obligations.PushDecrementsThenStores : Prop :=
  ∀ (v : Byte) (s : State),
    (s.sp = 0x00 → push v s = .error .stackOverflow) ∧
    (s.sp ≠ 0x00 → ∃ t, push v s = .ok t ∧ t = { s with sp := s.sp - 1, mem := t.mem } ∧
      StoredOne s.mem t.mem (s.sp.toNat - 1) v)

/-- `pop`: StackUnderflow at SP = SP_INIT and nothing changed; otherwise the cell at SP is answered and cleared,
and SP incremented (rule R101). -/
def Obligations.PopReadsClearsThenIncrements : Prop :=
  ∀ s : State,
    (s.sp = Config.spInit → pop s = .error .stackUnderflow) ∧
    (s.sp ≠ Config.spInit → ∃ t, pop s = .ok (s.mem.read s.sp.toNat, t) ∧
      t = { s with sp := s.sp + 1, mem := t.mem } ∧ StoredOne s.mem t.mem s.sp.toNat 0x00)

/-- The stack laws (rule R113): a pop after a push answers the value and restores SP, the one cell used then
holds zero and every other cell is unchanged; and values pop in the reverse of the order pushed. SP is at
most SP_INIT and memory canonical by the invariant. -/
def Obligations.StackIsLastInFirstOut : Prop :=
  (∀ (v : Byte) (s : State), s.mem.wf = true → s.sp.toNat ≤ Config.spInit.toNat → s.sp ≠ 0x00 →
    ∃ t u, push v s = .ok t ∧ pop t = .ok (v, u) ∧ u = { s with mem := u.mem } ∧
      StoredOne s.mem u.mem (s.sp.toNat - 1) 0x00) ∧
    ∀ (vs : List Byte) (s : State), s.mem.wf = true → s.sp.toNat ≤ Config.spInit.toNat →
      vs.length ≤ s.sp.toNat →
      ∃ t u, pushAll vs s = .ok t ∧ popMany vs.length t = .ok (vs.reverse, u) ∧ u.sp = s.sp

/-- The call and return law (rule R114): RET from any state that has the SP the CALL left and the return-address
cell it wrote (the subroutine is balanced and did not overwrite it) sets PC to the address after the CALL,
restores SP and clears the cell. The CALL is not at 254 (decision D24), the stack is not full, and the invariant's
SP bound and canonical memory hold. -/
def Obligations.ReturnGoesBackAfterTheCall : Prop :=
  ∀ (s : State) (r : Fin 8), s.mem.wf = true → s.sp.toNat ≤ Config.spInit.toNat → s.sp ≠ 0x00 →
    s.pc.toNat + 2 ≤ 255 →
    ∃ t, exec (.call (regByte r)) s = .next t ∧ t.pc = s.regs[r].setWidth 9 ∧ t.sp = s.sp - 1 ∧
      ∀ v : State, v.mem.wf = true → v.sp = t.sp → v.mem.read v.sp.toNat = t.mem.read t.sp.toNat →
        ∃ u, exec .ret v = .next u ∧ u.pc = s.pc + 2 ∧ u.sp = s.sp ∧ u.mem.read (s.sp.toNat - 1) = 0x00

/-! ## What each instruction does: ALU -/

/-- ADD, SUB, MUL: the wrapped exact result in reg_a, PC past the three bytes, nothing else (rules R70, R71,
R72). -/
def Obligations.AddSubMulWriteTheWrappedResult : Prop :=
  ∀ (a b : Fin 8) (s : State),
    (encode (.add (regByte a) (regByte b)) = [0xA0, regByte a, regByte b] ∧
      exec (.add (regByte a) (regByte b)) s =
        .next { s with regs := s.regs.set a (wrap8 (s.regs[a].toInt + s.regs[b].toInt)), pc := s.pc + 3 }) ∧
    (encode (.sub (regByte a) (regByte b)) = [0xA1, regByte a, regByte b] ∧
      exec (.sub (regByte a) (regByte b)) s =
        .next { s with regs := s.regs.set a (wrap8 (s.regs[a].toInt - s.regs[b].toInt)), pc := s.pc + 3 }) ∧
    (encode (.mul (regByte a) (regByte b)) = [0xA2, regByte a, regByte b] ∧
      exec (.mul (regByte a) (regByte b)) s =
        .next { s with regs := s.regs.set a (wrap8 (s.regs[a].toInt * s.regs[b].toInt)), pc := s.pc + 3 })

/-- INC and DEC: reg_a plus or minus one, wrapped, PC past the two bytes, nothing else (rules R75, R76). -/
def Obligations.IncDecCountByOne : Prop :=
  ∀ (a : Fin 8) (s : State),
    (encode (.inc (regByte a)) = [0x65, regByte a] ∧
      exec (.inc (regByte a)) s =
        .next { s with regs := s.regs.set a (wrap8 (s.regs[a].toInt + 1)), pc := s.pc + 2 }) ∧
    (encode (.dec (regByte a)) = [0x66, regByte a] ∧
      exec (.dec (regByte a)) s =
        .next { s with regs := s.regs.set a (wrap8 (s.regs[a].toInt - 1)), pc := s.pc + 2 })

/-- AND, OR, XOR, NOT: each bit of reg_a is the bit operation on the register contents, nothing else changes but
PC (rules R78 to R81). -/
def Obligations.BitwiseInstructionsWorkBitByBit : Prop :=
  ∀ (a b : Fin 8) (s : State),
    (encode (.and (regByte a) (regByte b)) = [0xA8, regByte a, regByte b] ∧
      ∃ v : Byte, exec (.and (regByte a) (regByte b)) s =
          .next { s with regs := s.regs.set a v, pc := s.pc + 3 } ∧
        ∀ k, k < 8 → v.getLsbD k = (s.regs[a].getLsbD k && s.regs[b].getLsbD k)) ∧
    (encode (.or (regByte a) (regByte b)) = [0xAA, regByte a, regByte b] ∧
      ∃ v : Byte, exec (.or (regByte a) (regByte b)) s =
          .next { s with regs := s.regs.set a v, pc := s.pc + 3 } ∧
        ∀ k, k < 8 → v.getLsbD k = (s.regs[a].getLsbD k || s.regs[b].getLsbD k)) ∧
    (encode (.xor (regByte a) (regByte b)) = [0xAB, regByte a, regByte b] ∧
      ∃ v : Byte, exec (.xor (regByte a) (regByte b)) s =
          .next { s with regs := s.regs.set a v, pc := s.pc + 3 } ∧
        ∀ k, k < 8 → v.getLsbD k = (s.regs[a].getLsbD k ^^ s.regs[b].getLsbD k)) ∧
    (encode (.not (regByte a)) = [0x69, regByte a] ∧
      ∃ v : Byte, exec (.not (regByte a)) s = .next { s with regs := s.regs.set a v, pc := s.pc + 2 } ∧
        ∀ k, k < 8 → v.getLsbD k = !s.regs[a].getLsbD k)

/-- DIV and MOD: with a divisor that is not zero, the quotient truncated toward zero and its remainder, wrapped;
with a zero divisor, the fatal error DivideByZero and no register written (rules R73, R74, R162; the policy, and
all of MOD's corner cases, are decisions D14 and D15, log entry 14). -/
def Obligations.DivModTruncateOrFailOnZero : Prop :=
  ∀ (a b : Fin 8) (s : State),
    (s.regs[b] ≠ 0x00 →
      exec (.div (regByte a) (regByte b)) s =
        .next { s with regs := s.regs.set a (wrap8 (s.regs[a].toInt.tdiv s.regs[b].toInt)), pc := s.pc + 3 } ∧
      exec (.mod (regByte a) (regByte b)) s =
        .next { s with regs := s.regs.set a (wrap8 (s.regs[a].toInt.tmod s.regs[b].toInt)), pc := s.pc + 3 }) ∧
    (s.regs[b] = 0x00 →
      exec (.div (regByte a) (regByte b)) s = .next { s with run := .halted, err := some .divideByZero } ∧
      exec (.mod (regByte a) (regByte b)) s = .next { s with run := .halted, err := some .divideByZero })

/-- The division law (rules R74, R86; decisions D14, D15): dividend = quotient times divisor plus remainder, the
remainder smaller than the divisor and with the dividend's sign or zero; the one overflow, -128 / -1, wraps. -/
def Obligations.QuotientAndRemainderFitTogether : Prop :=
  ∀ (a b : Fin 8) (s : State), s.regs[b] ≠ 0x00 →
    ∃ t u, exec (.div (regByte a) (regByte b)) s = .next t ∧ exec (.mod (regByte a) (regByte b)) s = .next u ∧
      t.regs[a] * s.regs[b] + u.regs[a] = s.regs[a] ∧
      u.regs[a].toInt.natAbs < s.regs[b].toInt.natAbs ∧
      (u.regs[a].toInt ≠ 0 → (u.regs[a].toInt < 0 ↔ s.regs[a].toInt < 0)) ∧
      (¬(s.regs[a] = 0x80 ∧ s.regs[b] = 0xFF) →
        t.regs[a].toInt * s.regs[b].toInt + u.regs[a].toInt = s.regs[a].toInt) ∧
      (s.regs[a] = 0x80 ∧ s.regs[b] = 0xFF → t.regs[a] = 0x80 ∧ u.regs[a] = 0x00)

/-- CMP: L, G, E are the signed comparison of the two registers at bits 2, 1, 0 of FL, and no register changes
(rule R77; the signed reading is decision D13, the bit places D10, log entries 8 and 10). -/
def Obligations.CompareWritesTheSignedComparison : Prop :=
  ∀ (a b : Fin 8) (s : State),
    exec (.cmp (regByte a) (regByte b)) s =
      .next { s with
        fl := BitVec.ofBool (s.regs[a].slt s.regs[b]) ++ BitVec.ofBool (s.regs[b].slt s.regs[a]) ++
          BitVec.ofBool (s.regs[a] == s.regs[b])
        pc := s.pc + 3 }

/-- Comparing the other way round swaps Greater and Less and keeps Equal (rule R77, the source's property). -/
def Obligations.CompareIsSymmetric : Prop :=
  ∀ (a b : Fin 8) (s : State),
    ∃ t u, exec (.cmp (regByte a) (regByte b)) s = .next t ∧ exec (.cmp (regByte b) (regByte a)) t = .next u ∧
      flagG u.fl = flagL t.fl ∧ flagL u.fl = flagG t.fl ∧ flagE u.fl = flagE t.fl

/-- SHL and SHR, by the complete tables of rules R82 and R83: value and amount are both reg_b's content and the old
reg_a does not matter (conflict C1; decision D16, log entry 15). -/
def Obligations.ShiftsFollowTheirTables : Prop :=
  ∀ (a b : Fin 8) (s : State),
    exec (.shl (regByte a) (regByte b)) s =
      .next { s with
        regs := s.regs.set a
          (([0x00, 0x02, 0x08, 0x18, 0x40, 0xA0, 0x80, 0x80] : List Byte)[s.regs[b].toNat]?.getD 0x00)
        pc := s.pc + 3 } ∧
    exec (.shr (regByte a) (regByte b)) s =
      .next { s with regs := s.regs.set a (if s.regs[b].getLsbD 7 then 0xFF else 0x00), pc := s.pc + 3 }

/-- ADD, SUB, MUL, INC, DEC and SHL give the same 8 bits under the unsigned reading, modulo 256 (rule R85;
decisions D2, D3). -/
def Obligations.UnsignedReadingGivesTheSameBits : Prop :=
  ∀ (a b : Fin 8) (s : State),
    exec (.add (regByte a) (regByte b)) s =
      .next { s with regs := s.regs.set a (BitVec.ofNat 8 (s.regs[a].toNat + s.regs[b].toNat)), pc := s.pc + 3 } ∧
    exec (.sub (regByte a) (regByte b)) s =
      .next { s with
        regs := s.regs.set a (BitVec.ofNat 8 (s.regs[a].toNat + 256 - s.regs[b].toNat)), pc := s.pc + 3 } ∧
    exec (.mul (regByte a) (regByte b)) s =
      .next { s with regs := s.regs.set a (BitVec.ofNat 8 (s.regs[a].toNat * s.regs[b].toNat)), pc := s.pc + 3 } ∧
    exec (.inc (regByte a)) s =
      .next { s with regs := s.regs.set a (BitVec.ofNat 8 (s.regs[a].toNat + 1)), pc := s.pc + 2 } ∧
    exec (.dec (regByte a)) s =
      .next { s with regs := s.regs.set a (BitVec.ofNat 8 (s.regs[a].toNat + 255)), pc := s.pc + 2 } ∧
    exec (.shl (regByte a) (regByte b)) s =
      .next { s with
        regs := s.regs.set a (BitVec.ofNat 8 (s.regs[b].toNat * 2 ^ s.regs[b].toNat)), pc := s.pc + 3 }

/-- The frame of the fourteen ALU instructions (rule R84): when one completes, every register but reg_a is
unchanged (for CMP all of them), FL is unchanged but by CMP, PC advances by the instruction's length, 3 or 2,
and SP, the run state, the cause, the output and every byte of memory are unchanged. -/
def Obligations.AluInstructionsChangeOnlyRegA : Prop :=
  ∀ (i : Instr) (s t : State), i.category = .arithmeticLogic → i.wellFormed = true → ownError i s = none →
    exec i s = .next t →
    (∀ r : Fin 8, i.operandBytes.head? ≠ some (regByte r) → t.regs[r] = s.regs[r]) ∧
    ((∃ a b, i = .cmp a b) → t.regs = s.regs) ∧
    ((∀ a b, i ≠ .cmp a b) → t.fl = s.fl) ∧
    t.pc = s.pc + (if i.operandCount = 2 then 3 else 2) ∧
    t.sp = s.sp ∧ t.run = s.run ∧ t.err = s.err ∧ t.out = s.out ∧
    ∀ a, t.mem.read a = s.mem.read a

/-! ## What each instruction does: control flow -/

/-- JMP: PC is the register's unsigned content, exactly (rule R104). -/
def Obligations.JmpGoesToTheRegister : Prop :=
  ∀ (r : Fin 8) (s : State),
    encode (.jmp (regByte r)) = [0x54, regByte r] ∧
    exec (.jmp (regByte r)) s = .next { s with pc := BitVec.ofNat 9 s.regs[r].toNat }

/-- The six conditional jumps: taken, PC is the register's content; not taken, PC advances by 2; nothing else
changes (rules R105 to R110). -/
def Obligations.ConditionalJumpsTestTheirFlags : Prop :=
  ∀ (r : Fin 8) (s : State),
    (encode (.jeq (regByte r)) = [0x55, regByte r] ∧
      exec (.jeq (regByte r)) s =
        .next { s with pc := if flagE s.fl then s.regs[r].setWidth 9 else s.pc + 2 }) ∧
    (encode (.jne (regByte r)) = [0x56, regByte r] ∧
      exec (.jne (regByte r)) s =
        .next { s with pc := if flagE s.fl then s.pc + 2 else s.regs[r].setWidth 9 }) ∧
    (encode (.jgt (regByte r)) = [0x57, regByte r] ∧
      exec (.jgt (regByte r)) s =
        .next { s with pc := if flagG s.fl then s.regs[r].setWidth 9 else s.pc + 2 }) ∧
    (encode (.jlt (regByte r)) = [0x58, regByte r] ∧
      exec (.jlt (regByte r)) s =
        .next { s with pc := if flagL s.fl then s.regs[r].setWidth 9 else s.pc + 2 }) ∧
    (encode (.jle (regByte r)) = [0x59, regByte r] ∧
      exec (.jle (regByte r)) s =
        .next { s with pc := if flagE s.fl ∨ flagL s.fl then s.regs[r].setWidth 9 else s.pc + 2 }) ∧
    (encode (.jge (regByte r)) = [0x5A, regByte r] ∧
      exec (.jge (regByte r)) s =
        .next { s with pc := if flagE s.fl ∨ flagG s.fl then s.regs[r].setWidth 9 else s.pc + 2 })

/-- CALL: the return address is pushed and PC is the register's content; AddressOutOfRange when the return
address is above 255, before StackOverflow when SP is 0 (rule R102; decision D24, log entry 17). -/
def Obligations.CallPushesTheReturnAddress : Prop :=
  ∀ (r : Fin 8) (s : State),
    (s.pc.toNat + 2 > 255 → exec (.call (regByte r)) s =
      .next { s with run := .halted, err := some (.addressOutOfRange (s.pc.toNat + 2)) }) ∧
    (s.pc.toNat + 2 ≤ 255 → s.sp = 0x00 →
      exec (.call (regByte r)) s = .next { s with run := .halted, err := some .stackOverflow }) ∧
    (s.pc.toNat + 2 ≤ 255 → s.sp ≠ 0x00 →
      ∃ t, exec (.call (regByte r)) s = .next t ∧
        t = { s with pc := s.regs[r].setWidth 9, sp := s.sp - 1, mem := t.mem } ∧
        StoredOne s.mem t.mem (s.sp.toNat - 1) (BitVec.ofNat 8 (s.pc.toNat + 2)))

/-- RET: PC is the popped byte, read unsigned, whose cell is cleared; StackUnderflow on an empty stack
(rule R103). -/
def Obligations.RetGoesToThePoppedByte : Prop :=
  encode .ret = [0x11] ∧
  ∀ s : State,
    (s.sp = Config.spInit → exec .ret s = .next { s with run := .halted, err := some .stackUnderflow }) ∧
    (s.sp ≠ Config.spInit →
      ∃ t, exec .ret s = .next t ∧
        t = { s with pc := BitVec.ofNat 9 (s.mem.read s.sp.toNat).toNat, sp := s.sp + 1, mem := t.mem } ∧
        StoredOne s.mem t.mem s.sp.toNat 0x00)

/-! ## What each instruction does: other -/

/-- NOP has no effect but the advance; HLT ends the run with cause None and PC just past it (rules R120,
R121). -/
def Obligations.NopAdvancesAndHltStops : Prop :=
  encode .nop = [0x00] ∧ encode .hlt = [0x01] ∧
  ∀ s : State,
    exec .nop s = .next { s with pc := s.pc + 1 } ∧
    exec .hlt s = .next { s with run := .halted, err := none, pc := s.pc + 1 }

/-- LDI: the register is the immediate byte, unchanged and unchecked (rule R122). -/
def Obligations.LdiLoadsTheImmediate : Prop :=
  ∀ (r : Fin 8) (imm : Byte) (s : State),
    encode (.ldi (regByte r) imm) = [0x82, regByte r, imm] ∧
    exec (.ldi (regByte r) imm) s = .next { s with regs := s.regs.set r imm, pc := s.pc + 3 }

/-- LD: reg_a is the byte at the address reg_b holds (rule R123). -/
def Obligations.LdLoadsTheAddressedByte : Prop :=
  ∀ (a b : Fin 8) (s : State),
    encode (.ld (regByte a) (regByte b)) = [0x83, regByte a, regByte b] ∧
    exec (.ld (regByte a) (regByte b)) s =
      .next { s with regs := s.regs.set a (s.mem.read s.regs[b].toNat), pc := s.pc + 3 }

/-- ST: the cell at the address reg_a holds is the content of reg_b; no other cell and no register changes
(rule R124). -/
def Obligations.StStoresAtTheAddress : Prop :=
  ∀ (a b : Fin 8) (s : State),
    encode (.st (regByte a) (regByte b)) = [0x84, regByte a, regByte b] ∧
    ∃ t, exec (.st (regByte a) (regByte b)) s = .next t ∧ t = { s with pc := s.pc + 3, mem := t.mem } ∧
      StoredOne s.mem t.mem s.regs[a].toNat s.regs[b]

/-- PUSH: the register's content is pushed; StackOverflow at SP = 0, with nothing written (rule R125). -/
def Obligations.PushPushesTheRegister : Prop :=
  ∀ (r : Fin 8) (s : State),
    encode (.push (regByte r)) = [0x45, regByte r] ∧
    (s.sp = 0x00 → exec (.push (regByte r)) s = .next { s with run := .halted, err := some .stackOverflow }) ∧
    (s.sp ≠ 0x00 →
      ∃ t, exec (.push (regByte r)) s = .next t ∧
        t = { s with pc := s.pc + 2, sp := s.sp - 1, mem := t.mem } ∧
        StoredOne s.mem t.mem (s.sp.toNat - 1) s.regs[r])

/-- POP: the register is the popped byte, whose cell is cleared; StackUnderflow on an empty stack, with nothing
written (rule R126). -/
def Obligations.PopPopsIntoTheRegister : Prop :=
  ∀ (r : Fin 8) (s : State),
    encode (.pop (regByte r)) = [0x46, regByte r] ∧
    (s.sp = Config.spInit →
      exec (.pop (regByte r)) s = .next { s with run := .halted, err := some .stackUnderflow }) ∧
    (s.sp ≠ Config.spInit →
      ∃ t, exec (.pop (regByte r)) s = .next t ∧
        t = { s with
          regs := s.regs.set r (s.mem.read s.sp.toNat), pc := s.pc + 2, sp := s.sp + 1, mem := t.mem } ∧
        StoredOne s.mem t.mem s.sp.toNat 0x00)

/-- PRN emits the signed reading and PRA the code point of the unsigned reading, and nothing else changes but PC
(rules R127, R128; decisions D13, D23, log entry 4). -/
def Obligations.PrnAndPraEmitOneEvent : Prop :=
  ∀ (r : Fin 8) (s : State),
    exec (.prn (regByte r)) s = .next { s with out := s.out ++ [.dec s.regs[r].toInt], pc := s.pc + 2 } ∧
    exec (.pra (regByte r)) s = .next { s with out := s.out ++ [.chr s.regs[r].toNat], pc := s.pc + 2 }

/-! ## Frames and whole-machine rules, over all instructions -/

/-- No instruction changes a register that rule R11's table does not list under "writes". -/
def Obligations.OnlyTheTabledRegistersAreWritten : Prop :=
  ∀ (i : Instr) (s t : State) (r : Fin 8), exec i s = .next t → regByte r ∉ writes i → t.regs[r] = s.regs[r]

/-- No instruction depends on a register that rule R11's table does not list under "reads": with another content
in it the instruction does the same to everything else, and writes the same into it if it writes it. -/
def Obligations.OnlyTheTabledRegistersAreRead : Prop :=
  ∀ (i : Instr) (s : State) (r : Fin 8) (v : Byte), regByte r ∉ reads i →
    ∃ t t', exec i s = .next t ∧ exec i { s with regs := s.regs.set r v } = .next t' ∧
      t' = { t with regs := t'.regs } ∧ (∀ q : Fin 8, q ≠ r → t'.regs[q] = t.regs[q]) ∧
      (regByte r ∈ writes i → i.wellFormed = true → ownError i s = none → t'.regs[r] = t.regs[r])

/-- FL is set only by CMP, to exactly one flag, and read only by the conditional jumps; so no flag is set only
until the first CMP (rule R16). -/
def Obligations.FlagsAreSetByCompareAndReadByJumps : Prop :=
  (∀ (a b : Fin 8) (s : State), ∃ t, exec (.cmp (regByte a) (regByte b)) s = .next t ∧
    [flagL t.fl, flagG t.fl, flagE t.fl].count true = 1) ∧
  (∀ (i : Instr) (s t : State), (∀ a b, i ≠ .cmp a b) → exec i s = .next t → t.fl = s.fl) ∧
  (∀ (i : Instr) (s : State) (f : BitVec 3),
    (∀ r, i ≠ .jeq r ∧ i ≠ .jne r ∧ i ≠ .jgt r ∧ i ≠ .jlt r ∧ i ≠ .jle r ∧ i ≠ .jge r) →
    ∃ t t', exec i s = .next t ∧ exec i { s with fl := f } = .next t' ∧ t' = { t with fl := t'.fl } ∧
      ((∃ a b : Fin 8, i = .cmp (regByte a) (regByte b)) → t' = t)) ∧
  ∀ (i : Instr) (s t : State), exec i s = .next t → s.fl ≠ 0b000 → t.fl ≠ 0b000

/-- SP is read and written only by PUSH, POP, CALL and RET (rule R14; decision D30). -/
def Obligations.StackPointerBelongsToTheStackInstructions : Prop :=
  ∀ (i : Instr) (s : State) (p : Byte),
    (∀ r, i ≠ .push r ∧ i ≠ .pop r ∧ i ≠ .call r) → i ≠ .ret →
    ∃ t, exec i s = .next t ∧ t.sp = s.sp ∧ exec i { s with sp := p } = .next { t with sp := p }

/-- Every byte of memory is unchanged but the one cell the instruction stores to, at the address its meaning
computes; an instruction that stores nothing changes no byte (rules R34, R41). -/
def Obligations.OnlyTheStoredCellChanges : Prop :=
  ∀ (i : Instr) (s t : State) (a : Nat), exec i s = .next t → storeAddr i s ≠ some a →
    t.mem.read a = s.mem.read a

/-- Output comes from PRN and PRA alone, one event each, after all earlier output (rules R20, R130; the form of the
events is decision D23). -/
def Obligations.OutputIsAppendedByPrnAndPraOnly : Prop :=
  ∀ (i : Instr) (s t : State), exec i s = .next t → t.out = s.out ++ events i s

/-- The run state and the cause are written only by HLT and by fatal errors (rules R18, R19). -/
def Obligations.RunStateAndCauseFrame : Prop :=
  ∀ (i : Instr) (s : State), i.wellFormed = true → ownError i s = none → i ≠ .hlt →
    ∃ t, exec i s = .next t ∧ t.run = s.run ∧ t.err = s.err
end

