-- ==== Sys2Proof/Laws/Decode.lean ====
section
/-! SUPPORT. The opcode map and the decoder: the table has no byte twice (the check rule R58 asks for when the
table is built), and what the decode function answers for the opcode of each instruction. -/

namespace Sys2Proof

/-- The map is injective: no two rows share an opcode byte (rule R58). -/
theorem opcodeTable_nodup : (opcodeTable.map Prod.fst).Nodup := by decide

/-- It has 32 rows (rule R56). -/
theorem opcodeTable_length : opcodeTable.length = 32 := by decide

/-- The entry an instruction is made by. -/
def Instr.entry : Instr → OpcodeEntry
  | .nop => .z .nop
  | .hlt => .z .hlt
  | .ret => .z .ret
  | .ldi _ _ => .ri .ldi
  | .ld _ _ => .rr .ld
  | .st _ _ => .rr .st
  | .push _ => .r .push
  | .pop _ => .r .pop
  | .prn _ => .r .prn
  | .pra _ => .r .pra
  | .call _ => .r .call
  | .jmp _ => .r .jmp
  | .jeq _ => .r .jeq
  | .jne _ => .r .jne
  | .jgt _ => .r .jgt
  | .jlt _ => .r .jlt
  | .jle _ => .r .jle
  | .jge _ => .r .jge
  | .add _ _ => .rr .add
  | .sub _ _ => .rr .sub
  | .mul _ _ => .rr .mul
  | .div _ _ => .rr .div
  | .mod _ _ => .rr .mod
  | .inc _ => .r .inc
  | .dec _ => .r .dec
  | .cmp _ _ => .rr .cmp
  | .and _ _ => .rr .and
  | .or _ _ => .rr .or
  | .xor _ _ => .rr .xor
  | .not _ => .r .not
  | .shl _ _ => .rr .shl
  | .shr _ _ => .rr .shr

/-- The decode function and the encoder's opcodes agree. -/
theorem decodeOpcode_opcode (i : Instr) : decodeOpcode i.opcode = some i.entry := by
  cases i <;> rfl

/-- Every entry the decode function answers is a row of the map. -/
theorem mem_opcodeTable {op : Byte} {e : OpcodeEntry} (h : decodeOpcode op = some e) :
    (op, e) ∈ opcodeTable := by
  obtain ⟨⟨o, e'⟩, hf, rfl⟩ := Option.map_eq_some_iff.1 h
  have ho : o = op := by simpa using List.find?_some hf
  exact ho ▸ List.mem_of_find?_eq_some hf

/-- What an entry makes of two operand bytes, of which it uses the first ones. -/
def OpcodeEntry.make (b1 b2 : Byte) : OpcodeEntry → Instr
  | .z i => i
  | .r f => f b1
  | .rr f => f b1 b2
  | .ri f => f b1 b2

/-- How many operand bytes an entry uses. -/
def OpcodeEntry.operands : OpcodeEntry → Nat
  | .z _ => 0
  | .r _ => 1
  | .rr _ => 2
  | .ri _ => 2

/-- Every row makes instructions of its opcode, with the operand bytes it used. -/
theorem encode_make {op : Byte} {e : OpcodeEntry} (h : decodeOpcode op = some e) (b1 b2 : Byte) :
    encode (e.make b1 b2) = op :: [b1, b2].take e.operands := by
  have rows : ∀ row ∈ opcodeTable, encode (row.2.make b1 b2) = row.1 :: [b1, b2].take row.2.operands := by
    simp only [opcodeTable, otherRows, controlFlowRows, aluRows, List.cons_append, List.nil_append,
      List.forall_mem_cons]
    exact ⟨rfl, rfl, rfl, rfl, rfl, rfl, rfl, rfl, rfl, rfl, rfl, rfl, rfl, rfl, rfl, rfl, rfl, rfl, rfl, rfl,
      rfl, rfl, rfl, rfl, rfl, rfl, rfl, rfl, rfl, rfl, rfl, rfl, by simp⟩
  exact rows _ (mem_opcodeTable h)

/-- An instruction read from a source of bytes has its own bytes there. -/
theorem readInstr_ok {ε : Type} {byteAt : Nat → Except ε Byte} {invalid : Byte → ε} {i : Instr}
    (h : readInstr byteAt invalid = .ok i) :
    ∀ (k : Nat) (hk : k < (encode i).length), byteAt k = .ok (encode i)[k] := by
  unfold readInstr at h
  simp only [bind, Except.bind] at h
  split at h
  · cases h
  · next op h0 =>
    split at h
    · cases h
    · next he => cases h; have := encode_make he 0 0; simp_all [OpcodeEntry.make, OpcodeEntry.operands]
    · next he =>
      split at h
      · cases h
      · next b1 h1 =>
        cases h
        have he : encode _ = [op, b1] := encode_make he b1 0
        simp only [OpcodeEntry.make] at he
        simp only [he]
        rintro (_ | _ | k) hk
        exacts [h0, h1, absurd hk (by simp)]
    all_goals
      next he =>
      split at h
      · cases h
      · next b1 h1 =>
        split at h
        · cases h
        · next b2 h2 =>
          cases h
          have he : encode _ = [op, b1, b2] := encode_make he b1 b2
          simp only [OpcodeEntry.make] at he
          simp only [he]
          rintro (_ | _ | _ | k) hk
          exacts [h0, h1, h2, absurd hk (by simp)]

end Sys2Proof
end

