-- ==== Sys2Proof/Laws/Memory.lean ====
section
/-! SUPPORT. The laws of memory: a read after a write, and that every memory operation keeps the canonical
form (spec/20_memory.md rules R30, R31). -/

namespace Sys2Proof.Machine

/-- A write leaves every other cell alone. -/
theorem Memory.read_write_other (m : Memory) (addr : Nat) (v : Byte) (a : Nat) (h : a ≠ addr) :
    (m.write addr v).read a = m.read a := by
  induction m with
  | nil => unfold Memory.write; split <;> simp [Memory.read, h]
  | cons c m ih =>
    obtain ⟨b, w⟩ := c
    unfold Memory.write
    split
    · split <;> simp [Memory.read, h]
    · split
      · next hb => subst hb; split <;> simp [Memory.read, h]
      · simp [Memory.read, ih]

/-- A canonical memory without its first cell is canonical. -/
theorem Memory.wf_tail {a : Nat} {w : Byte} {m : Memory} (h : Memory.wf ((a, w) :: m) = true) :
    Memory.wf m = true := by
  simp only [Memory.wf, List.pairwise_cons, List.all_cons, Bool.and_eq_true, decide_eq_true_eq] at h ⊢
  exact ⟨h.1.2, h.2.2⟩

/-- In a canonical memory every listed address is above an address below the first. -/
theorem Memory.read_below {m : Memory} {addr : Nat} (h : ∀ c ∈ m, addr < c.1) :
    m.read addr = Config.emptyByte := by
  induction m with
  | nil => rfl
  | cons c m ih =>
    obtain ⟨a, w⟩ := c
    have ha : addr < a := h (a, w) (by simp)
    rw [Memory.read, if_neg (by omega)]
    exact ih fun c hc => h c (List.mem_cons_of_mem _ hc)

/-- In a canonical memory the cells after the first have higher addresses. -/
theorem Memory.wf_head_lt {a : Nat} {w : Byte} {m : Memory} (h : Memory.wf ((a, w) :: m) = true) :
    ∀ c ∈ m, a < c.1 := by
  simp only [Memory.wf, List.pairwise_cons, Bool.and_eq_true, decide_eq_true_eq] at h
  exact h.1.1

/-- A read of the cell just written gives the value written. -/
theorem Memory.read_write_same (m : Memory) (addr : Nat) (v : Byte) (h : m.wf = true) :
    (m.write addr v).read addr = v := by
  induction m with
  | nil => unfold Memory.write; split <;> simp_all [Memory.read]
  | cons c m ih =>
    obtain ⟨b, w⟩ := c
    have hlt := Memory.wf_head_lt h
    unfold Memory.write
    split
    · next hb =>
      split
      · next hv =>
        rw [hv]
        exact Memory.read_below (by
          intro c hc
          rcases List.mem_cons.1 hc with rfl | hc
          · exact hb
          · exact Nat.lt_trans hb (hlt c hc))
      · simp [Memory.read]
    · split
      · next hb =>
        subst hb
        split
        · next hv => rw [hv]; exact Memory.read_below hlt
        · simp [Memory.read]
      · next hb => rw [Memory.read, if_neg hb]; exact ih (Memory.wf_tail h)

/-- Every cell listed after a write was listed before or is the cell written, not empty. -/
theorem Memory.mem_write {m : Memory} {addr : Nat} {v : Byte} {c : Host.Cell} (h : c ∈ m.write addr v) :
    c ∈ m ∨ (c = (addr, v) ∧ v ≠ Config.emptyByte) := by
  induction m with
  | nil => unfold Memory.write at h; split at h <;> simp_all
  | cons d m ih =>
    obtain ⟨b, w⟩ := d
    unfold Memory.write at h
    split at h
    · split at h
      · exact .inl h
      · rcases List.mem_cons.1 h with h | h
        · exact .inr ⟨h, by assumption⟩
        · exact .inl h
    · split at h
      · split at h
        · exact .inl (List.mem_cons_of_mem _ h)
        · rcases List.mem_cons.1 h with h | h
          · exact .inr ⟨h, by assumption⟩
          · exact .inl (List.mem_cons_of_mem _ h)
      · rcases List.mem_cons.1 h with h | h
        · exact .inl (h ▸ List.mem_cons_self)
        · exact (ih h).imp (List.mem_cons_of_mem _) id

/-- A write inside the address space keeps the canonical form. -/
theorem Memory.wf_write (m : Memory) (addr : Nat) (v : Byte) (h : m.wf = true) (ha : addr < Config.memSize) :
    (m.write addr v).wf = true := by
  have hall : ∀ c ∈ m.write addr v, c.1 < Config.memSize ∧ c.2 ≠ Config.emptyByte := by
    intro c hc
    rcases Memory.mem_write hc with hc | ⟨rfl, hv⟩
    · simp only [Memory.wf, Bool.and_eq_true, List.all_eq_true, decide_eq_true_eq] at h
      exact h.2 c hc
    · exact ⟨ha, hv⟩
  have hsort : (m.write addr v).Pairwise fun c d => c.1 < d.1 := by
    clear hall
    induction m with
    | nil => unfold Memory.write; split <;> simp
    | cons d m ih =>
      obtain ⟨b, w⟩ := d
      have hlt := Memory.wf_head_lt h
      have htail : m.Pairwise fun c d => c.1 < d.1 := by
        have := Memory.wf_tail h
        simp only [Memory.wf, Bool.and_eq_true, decide_eq_true_eq] at this
        exact this.1
      unfold Memory.write
      split
      · next hb =>
        split
        · exact List.pairwise_cons.2 ⟨hlt, htail⟩
        · refine List.pairwise_cons.2 ⟨?_, List.pairwise_cons.2 ⟨hlt, htail⟩⟩
          intro c hc
          rcases List.mem_cons.1 hc with rfl | hc
          · exact hb
          · exact Nat.lt_trans hb (hlt c hc)
      · split
        · next hb =>
          subst hb
          split
          · exact htail
          · exact List.pairwise_cons.2 ⟨hlt, htail⟩
        · next hb hne =>
          refine List.pairwise_cons.2 ⟨?_, ih (Memory.wf_tail h)⟩
          intro c hc
          rcases Memory.mem_write hc with hc | ⟨rfl, _⟩
          · exact hlt c hc
          · show b < addr
            omega
  simp only [Memory.wf, Bool.and_eq_true, List.all_eq_true, decide_eq_true_eq]
  exact ⟨hsort, hall⟩

/-- `memWrite` keeps the canonical form. -/
theorem memWrite_wf {m m' : Memory} {addr : Nat} {v : Byte} (h : m.wf = true)
    (hw : memWrite m addr v = .ok m') : m'.wf = true := by
  unfold memWrite at hw
  split at hw
  · next ha => cases hw; exact Memory.wf_write m addr v h ha
  · cases hw

/-- Reset memory has the canonical form. -/
theorem reset_mem_wf : State.reset.mem.wf = true := by decide

/-- A byte is an address of the address space, so a read at one succeeds. -/
@[simp] theorem memRead_byte (m : Memory) (b : Byte) : memRead m b.toNat = .ok (m.read b.toNat) := by
  have hb : b.toNat < 256 := b.isLt
  simp [memRead, Config.memSize, hb]

/-- A byte is an address of the address space, so a write at one succeeds. -/
@[simp] theorem memWrite_byte (m : Memory) (b : Byte) (v : Byte) :
    memWrite m b.toNat v = .ok (m.write b.toNat v) := by
  have hb : b.toNat < 256 := b.isLt
  simp [memWrite, Config.memSize, hb]

end Sys2Proof.Machine
end

