-- ==== Sys2Proof/Laws/State.lean ====
section
/-! SUPPORT. One lemma per field per update of the state, so that no proof unfolds a record update. -/

namespace Sys2Proof.Machine

variable (s : State)

@[simp] theorem setPc_regs (target : PcWord) : (setPc target s).regs = s.regs := rfl
@[simp] theorem setPc_pc (target : PcWord) : (setPc target s).pc = target := rfl
@[simp] theorem setPc_sp (target : PcWord) : (setPc target s).sp = s.sp := rfl
@[simp] theorem setPc_fl (target : PcWord) : (setPc target s).fl = s.fl := rfl
@[simp] theorem setPc_run (target : PcWord) : (setPc target s).run = s.run := rfl
@[simp] theorem setPc_err (target : PcWord) : (setPc target s).err = s.err := rfl
@[simp] theorem setPc_mem (target : PcWord) : (setPc target s).mem = s.mem := rfl
@[simp] theorem setPc_out (target : PcWord) : (setPc target s).out = s.out := rfl

@[simp] theorem advance_regs (n : Nat) : (advance n s).regs = s.regs := rfl
@[simp] theorem advance_pc (n : Nat) : (advance n s).pc = s.pc + BitVec.ofNat 9 (n + 1) := rfl
@[simp] theorem advance_sp (n : Nat) : (advance n s).sp = s.sp := rfl
@[simp] theorem advance_fl (n : Nat) : (advance n s).fl = s.fl := rfl
@[simp] theorem advance_run (n : Nat) : (advance n s).run = s.run := rfl
@[simp] theorem advance_err (n : Nat) : (advance n s).err = s.err := rfl
@[simp] theorem advance_mem (n : Nat) : (advance n s).mem = s.mem := rfl
@[simp] theorem advance_out (n : Nat) : (advance n s).out = s.out := rfl

@[simp] theorem raise_regs (e : FatalError) : (raise e s).regs = s.regs := rfl
@[simp] theorem raise_pc (e : FatalError) : (raise e s).pc = s.pc := rfl
@[simp] theorem raise_sp (e : FatalError) : (raise e s).sp = s.sp := rfl
@[simp] theorem raise_fl (e : FatalError) : (raise e s).fl = s.fl := rfl
@[simp] theorem raise_run (e : FatalError) : (raise e s).run = .halted := rfl
@[simp] theorem raise_err (e : FatalError) : (raise e s).err = some e := rfl
@[simp] theorem raise_mem (e : FatalError) : (raise e s).mem = s.mem := rfl
@[simp] theorem raise_out (e : FatalError) : (raise e s).out = s.out := rfl

@[simp] theorem emit_regs (e : OutEvent) : (emit e s).regs = s.regs := rfl
@[simp] theorem emit_pc (e : OutEvent) : (emit e s).pc = s.pc := rfl
@[simp] theorem emit_sp (e : OutEvent) : (emit e s).sp = s.sp := rfl
@[simp] theorem emit_fl (e : OutEvent) : (emit e s).fl = s.fl := rfl
@[simp] theorem emit_run (e : OutEvent) : (emit e s).run = s.run := rfl
@[simp] theorem emit_err (e : OutEvent) : (emit e s).err = s.err := rfl
@[simp] theorem emit_mem (e : OutEvent) : (emit e s).mem = s.mem := rfl
@[simp] theorem emit_out (e : OutEvent) : (emit e s).out = s.out ++ [e] := rfl

@[simp] theorem halt_regs : (halt s).regs = s.regs := rfl
@[simp] theorem halt_pc : (halt s).pc = s.pc := rfl
@[simp] theorem halt_sp : (halt s).sp = s.sp := rfl
@[simp] theorem halt_fl : (halt s).fl = s.fl := rfl
@[simp] theorem halt_run : (halt s).run = .halted := rfl
@[simp] theorem halt_err : (halt s).err = none := rfl
@[simp] theorem halt_mem : (halt s).mem = s.mem := rfl
@[simp] theorem halt_out : (halt s).out = s.out := rfl

@[simp] theorem writeReg_regs (i : Fin 8) (v : Byte) : (writeReg i v s).regs = s.regs.set i v := rfl
@[simp] theorem writeReg_pc (i : Fin 8) (v : Byte) : (writeReg i v s).pc = s.pc := rfl
@[simp] theorem writeReg_sp (i : Fin 8) (v : Byte) : (writeReg i v s).sp = s.sp := rfl
@[simp] theorem writeReg_fl (i : Fin 8) (v : Byte) : (writeReg i v s).fl = s.fl := rfl
@[simp] theorem writeReg_run (i : Fin 8) (v : Byte) : (writeReg i v s).run = s.run := rfl
@[simp] theorem writeReg_err (i : Fin 8) (v : Byte) : (writeReg i v s).err = s.err := rfl
@[simp] theorem writeReg_mem (i : Fin 8) (v : Byte) : (writeReg i v s).mem = s.mem := rfl
@[simp] theorem writeReg_out (i : Fin 8) (v : Byte) : (writeReg i v s).out = s.out := rfl

/-- A register read after a write: the written register gives the value, every other is as before. -/
theorem readReg_writeReg (i j : Fin 8) (v : Byte) :
    readReg (writeReg i v s) j = if j = i then v else readReg s j := by
  simp [readReg, writeReg, Vector.getElem_set, Fin.ext_iff, eq_comm]

@[simp] theorem readReg_setPc (target : PcWord) (j : Fin 8) : readReg (setPc target s) j = readReg s j := rfl

@[simp] theorem readReg_advance (n : Nat) (j : Fin 8) : readReg (advance n s) j = readReg s j := rfl

@[simp] theorem readReg_raise (e : FatalError) (j : Fin 8) : readReg (raise e s) j = readReg s j := rfl

@[simp] theorem readReg_emit (e : OutEvent) (j : Fin 8) : readReg (emit e s) j = readReg s j := rfl

@[simp] theorem readReg_halt (j : Fin 8) : readReg (halt s) j = readReg s j := rfl

end Sys2Proof.Machine
end

