-- ==== Sys2Proof/Laws/Ops.lean ====
section
/-! SUPPORT. What each shared operation does, said once: the operand check, the stack primitives, the shapes
of the ALU instructions and of the conditional jumps, and placing bytes. -/

namespace Sys2Proof.Machine

/-! ## The operand check -/

@[simp] theorem regByte_toNat (r : Fin 8) : (regByte r).toNat = r.val := by
  have := r.isLt
  rw [regByte, BitVec.toNat_ofNat]
  omega

/-- Every byte 0..7 names a register. -/
theorem exists_regByte {b : Byte} (h : b.toNat < 8) : ∃ r : Fin 8, b = regByte r :=
  ⟨⟨b.toNat, h⟩, by simp [regByte]⟩

@[simp] theorem regIndex_regByte (r : Fin 8) : regIndex (regByte r) = .ok r := by
  simp [regIndex, regByte_toNat]

/-- A byte 8..255 names no register. -/
theorem regIndex_error {b : Byte} (h : 8 ≤ b.toNat) : regIndex b = .error (.addressOutOfRange b.toNat) := by
  rw [regIndex, dif_neg (by omega)]

theorem oneReg_regByte (a : Fin 8) (s : State) (k : Fin 8 → Except FatalError State) :
    oneReg (regByte a) s k = commit s (k a) := by
  simp [oneReg, bind, Except.bind]

theorem twoRegs_regByte (a b : Fin 8) (s : State) (k : Fin 8 → Fin 8 → Except FatalError State) :
    twoRegs (regByte a) (regByte b) s k = commit s (k a b) := by
  simp [twoRegs, bind, Except.bind]

theorem oneReg_error {a : Byte} (h : 8 ≤ a.toNat) (s : State) (k : Fin 8 → Except FatalError State) :
    oneReg a s k = .next (raise (.addressOutOfRange a.toNat) s) := by
  simp [oneReg, regIndex_error h, bind, Except.bind, commit]

theorem twoRegs_error_first {a : Byte} (h : 8 ≤ a.toNat) (b : Byte) (s : State)
    (k : Fin 8 → Fin 8 → Except FatalError State) :
    twoRegs a b s k = .next (raise (.addressOutOfRange a.toNat) s) := by
  simp [twoRegs, regIndex_error h, bind, Except.bind, commit]

theorem twoRegs_error_second (a : Fin 8) {b : Byte} (h : 8 ≤ b.toNat) (s : State)
    (k : Fin 8 → Fin 8 → Except FatalError State) :
    twoRegs (regByte a) b s k = .next (raise (.addressOutOfRange b.toNat) s) := by
  simp [twoRegs, regIndex_error h, bind, Except.bind, commit]

/-! ## All or nothing -/

@[simp] theorem commit_ok (s t : State) : commit s (.ok t) = .next t := rfl

@[simp] theorem commit_error (s : State) (e : FatalError) : commit s (.error e) = .next (raise e s) := rfl

/-- What a committed instruction answers: its own next state, or the fatal error taken. -/
theorem commit_cases (s : State) (r : Except FatalError State) :
    (∃ t, r = .ok t ∧ commit s r = .next t) ∨ (∃ e, r = .error e ∧ commit s r = .next (raise e s)) := by
  cases r with
  | ok t => exact .inl ⟨t, rfl, rfl⟩
  | error e => exact .inr ⟨e, rfl, rfl⟩

/-! ## The stack primitives -/

theorem push_overflow (v : Byte) {s : State} (h : s.sp = 0) : push v s = .error .stackOverflow := by
  simp [push, h]

theorem push_ok (v : Byte) {s : State} (h : s.sp ≠ 0) :
    push v s = .ok { s with sp := s.sp - 1, mem := s.mem.write (s.sp - 1).toNat v } := by
  unfold push
  rw [if_neg h]
  show (memWrite s.mem (s.sp - 1).toNat v >>= _) = _
  rw [memWrite_byte]
  rfl

theorem pop_underflow {s : State} (h : s.sp = Config.spInit) : pop s = .error .stackUnderflow := by
  simp [pop, h]

theorem pop_ok {s : State} (h : s.sp ≠ Config.spInit) :
    pop s = .ok (s.mem.read s.sp.toNat,
      { s with sp := s.sp + 1, mem := s.mem.write s.sp.toNat 0x00 }) := by
  simp [pop, h, bind, Except.bind]

/-! ## The shapes of the ALU instructions and of the conditional jumps -/

theorem aluBinary_ok {op : Byte → Byte → Except FatalError Byte} {a b : Fin 8} {s : State} {v : Byte}
    (h : op (readReg s a) (readReg s b) = .ok v) :
    aluBinary op (regByte a) (regByte b) s = .next (advance 2 (writeReg a v s)) := by
  simp [aluBinary, twoRegs_regByte, h, bind, Except.bind]

theorem aluBinary_error {op : Byte → Byte → Except FatalError Byte} {a b : Fin 8} {s : State} {e : FatalError}
    (h : op (readReg s a) (readReg s b) = .error e) :
    aluBinary op (regByte a) (regByte b) s = .next (raise e s) := by
  simp [aluBinary, twoRegs_regByte, h, bind, Except.bind]

theorem aluUnary_regByte (op : Byte → Byte) (a : Fin 8) (s : State) :
    aluUnary op (regByte a) s = .next (advance 1 (writeReg a (op (readReg s a)) s)) := by
  simp [aluUnary, oneReg_regByte]

theorem jumpIf_regByte (cond : BitVec 3 → Bool) (r : Fin 8) (s : State) :
    jumpIf cond (regByte r) s =
      .next (if cond s.fl then setPc (zext9 (readReg s r)) s else advance 1 s) := by
  simp [jumpIf, oneReg_regByte]

/-! ## Placing bytes -/

/-- Placing bytes keeps the canonical form. -/
theorem placeBytes_wf (bs : List Byte) (addr : Nat) (m : Memory) (h : m.wf = true) :
    (placeBytes bs addr m).wf = true := by
  induction bs generalizing addr m with
  | nil => exact h
  | cons b bs ih =>
    unfold placeBytes
    apply ih
    split
    · next ha => exact Memory.wf_write m addr b h ha
    · exact h

/-- Placing bytes changes no cell outside them. -/
theorem placeBytes_read_outside (bs : List Byte) (addr : Nat) (m : Memory) (a : Nat)
    (h : a < addr ∨ addr + bs.length ≤ a) : (placeBytes bs addr m).read a = m.read a := by
  induction bs generalizing addr m with
  | nil => rfl
  | cons b bs ih =>
    simp only [List.length_cons] at h
    rw [placeBytes, ih _ _ (by omega)]
    split
    · exact Memory.read_write_other m addr b a (by omega)
    · rfl

/-- The cell of byte `k` of the bytes placed holds it, if it exists. -/
theorem placeBytes_read_inside (bs : List Byte) (addr : Nat) (m : Memory) (h : m.wf = true) (k : Nat)
    (hk : k < bs.length) (ha : addr + k < Config.memSize) :
    (placeBytes bs addr m).read (addr + k) = bs[k] := by
  induction bs generalizing addr m k with
  | nil => simp at hk
  | cons b bs ih =>
    unfold placeBytes
    rw [if_pos (by omega)]
    cases k with
    | zero =>
      rw [placeBytes_read_outside _ _ _ _ (by omega)]
      simpa using Memory.read_write_same m addr b h
    | succ k =>
      have := ih (addr + 1) (m.write addr b) (Memory.wf_write m addr b h (by omega)) k
        (by simpa using hk) (by omega)
      simpa [Nat.add_assoc, Nat.add_comm 1 k] using this

end Sys2Proof.Machine
end

