-- ==== Sys2Proof/Laws/Exec.lean ====
section
/-! SUPPORT. What executing an instruction can do, said once: every next state `exec` answers is one of the
shapes of `Effect` (spec/43_executor.md rule R144). Invariants and frames are cases over it. -/

namespace Sys2Proof.Machine

/-- The shapes of a next state, for an instruction with `n` operand bytes in state `s`. -/
inductive Effect (n : Nat) (s : State) : State → Prop
  /-- A fatal error is taken. -/
  | error (e : FatalError) : Effect n s (raise e s)
  /-- Nothing but the advance. -/
  | nothing : Effect n s (advance n s)
  /-- A register is written. -/
  | register (i : Fin 8) (v : Byte) : Effect n s (advance n (writeReg i v s))
  /-- FL is written by a comparison. -/
  | flags (x y : Byte) : Effect n s (advance n { s with fl := compareFlags x y })
  /-- A cell is written. -/
  | store (addr v : Byte) : Effect n s (advance n { s with mem := s.mem.write addr.toNat v })
  /-- PC is set. -/
  | jump (target : Byte) : Effect n s (setPc (zext9 target) s)
  /-- An event is emitted. -/
  | output (e : OutEvent) (h : e.inRange = true) : Effect n s (advance n (emit e s))
  /-- The normal stop. -/
  | stop : Effect n s (advance n (halt s))
  /-- A value is pushed. -/
  | push (v : Byte) (h : s.sp ≠ 0) :
    Effect n s (advance n { s with sp := s.sp - 1, mem := s.mem.write (s.sp - 1).toNat v })
  /-- A return address is pushed and PC set. -/
  | call (v target : Byte) (h : s.sp ≠ 0) :
    Effect n s (setPc (zext9 target) { s with sp := s.sp - 1, mem := s.mem.write (s.sp - 1).toNat v })
  /-- A value is popped into a register. -/
  | pop (i : Fin 8) (h : s.sp ≠ Config.spInit) :
    Effect n s (advance n (writeReg i (s.mem.read s.sp.toNat)
      { s with sp := s.sp + 1, mem := s.mem.write s.sp.toNat 0x00 }))
  /-- A value is popped into PC. -/
  | ret (h : s.sp ≠ Config.spInit) :
    Effect n s (setPc (zext9 (s.mem.read s.sp.toNat))
      { s with sp := s.sp + 1, mem := s.mem.write s.sp.toNat 0x00 })

variable {n : Nat} {s t : State} {a b : Byte}

/-- A committed answer is an effect if its own next states are. -/
theorem commit_effect {r : Except FatalError State} (hr : ∀ u, r = .ok u → Effect n s u)
    (h : commit s r = .next t) : Effect n s t := by
  rcases commit_cases s r with ⟨u, hu, hc⟩ | ⟨e, _, hc⟩ <;> rw [hc] at h <;> cases h
  · exact hr _ hu
  · exact .error e

theorem oneReg_effect {k : Fin 8 → Except FatalError State} (hk : ∀ i u, k i = .ok u → Effect n s u)
    (h : oneReg a s k = .next t) : Effect n s t := by
  by_cases ha : a.toNat < 8
  · obtain ⟨i, rfl⟩ := exists_regByte ha
    rw [oneReg_regByte] at h
    exact commit_effect (hk i) h
  · rw [oneReg_error (by omega)] at h
    cases h
    exact .error _

theorem twoRegs_effect {k : Fin 8 → Fin 8 → Except FatalError State}
    (hk : ∀ i j u, k i j = .ok u → Effect n s u) (h : twoRegs a b s k = .next t) : Effect n s t := by
  by_cases ha : a.toNat < 8
  · obtain ⟨i, rfl⟩ := exists_regByte ha
    by_cases hb : b.toNat < 8
    · obtain ⟨j, rfl⟩ := exists_regByte hb
      rw [twoRegs_regByte] at h
      exact commit_effect (hk i j) h
    · rw [twoRegs_error_second i (by omega)] at h
      cases h
      exact .error _
  · rw [twoRegs_error_first (by omega)] at h
    cases h
    exact .error _

theorem aluBinary_effect {op : Byte → Byte → Except FatalError Byte} (h : aluBinary op a b s = .next t) :
    Effect 2 s t := by
  refine twoRegs_effect (fun i j u hu => ?_) h
  cases hv : op (readReg s i) (readReg s j) with
  | error e => simp [hv, bind, Except.bind] at hu
  | ok v =>
    simp only [hv, bind, Except.bind, Except.ok.injEq] at hu
    subst hu
    exact .register i v

theorem aluUnary_effect {op : Byte → Byte} (h : aluUnary op a s = .next t) : Effect 1 s t :=
  oneReg_effect (fun i _ hu => by cases hu; exact .register i _) h

theorem jumpIf_effect {cond : BitVec 3 → Bool} (h : jumpIf cond a s = .next t) : Effect 1 s t := by
  refine oneReg_effect (fun i u hu => ?_) h
  cases hu
  split
  · exact .jump _
  · exact .nothing

theorem execCmp_effect (h : execCmp a b s = .next t) : Effect 2 s t :=
  twoRegs_effect (fun _ _ _ hu => by cases hu; exact .flags _ _) h

theorem execLd_effect (h : execLd a b s = .next t) : Effect 2 s t :=
  twoRegs_effect (fun i j u hu => by
    simp only [regAddr, memRead_byte, bind, Except.bind, Except.ok.injEq] at hu
    subst hu
    exact .register i _) h

theorem execSt_effect (h : execSt a b s = .next t) : Effect 2 s t :=
  twoRegs_effect (fun i j u hu => by
    simp only [regAddr, memWrite_byte, bind, Except.bind, Except.ok.injEq] at hu
    subst hu
    exact .store _ _) h

theorem execPush_effect (h : execPush a s = .next t) : Effect 1 s t := by
  refine oneReg_effect (fun i u hu => ?_) h
  by_cases h0 : s.sp = 0
  · simp [push_overflow _ h0, bind, Except.bind] at hu
  · simp only [push_ok _ h0, bind, Except.bind, Except.ok.injEq] at hu
    subst hu
    exact .push _ h0

theorem execPop_effect (h : execPop a s = .next t) : Effect 1 s t := by
  refine oneReg_effect (fun i u hu => ?_) h
  by_cases h0 : s.sp = Config.spInit
  · simp [pop_underflow h0, bind, Except.bind] at hu
  · simp only [pop_ok h0, bind, Except.bind, Except.ok.injEq] at hu
    subst hu
    exact .pop i h0

theorem execCall_effect (h : execCall a s = .next t) : Effect 1 s t := by
  refine oneReg_effect (fun i u hu => ?_) h
  by_cases hp : s.pc.toNat + 2 > 255
  · simp only [hp, if_true] at hu
    cases hu
  · by_cases h0 : s.sp = 0
    · simp only [hp, if_false, push_overflow _ h0, bind, Except.bind] at hu
      cases hu
    · simp only [hp, if_false, push_ok _ h0, bind, Except.bind, Except.ok.injEq] at hu
      subst hu
      exact .call _ _ h0

theorem execRet_effect (h : execRet s = .next t) : Effect 0 s t := by
  refine commit_effect (fun u hu => ?_) h
  by_cases h0 : s.sp = Config.spInit
  · simp [pop_underflow h0, bind, Except.bind] at hu
  · simp only [pop_ok h0, bind, Except.bind, Except.ok.injEq] at hu
    subst hu
    exact .ret h0

/-- The signed reading of a byte is an event value of PRN. -/
theorem dec_inRange (v : Byte) : (OutEvent.dec v.toInt).inRange = true := by
  have h1 := v.toInt_lt
  have h2 := v.le_toInt
  simp only [OutEvent.inRange, decide_eq_true_eq]
  omega

/-- The unsigned reading of a byte is an event value of PRA. -/
theorem chr_inRange (v : Byte) : (OutEvent.chr v.toNat).inRange = true := by
  have h := v.isLt
  simp only [OutEvent.inRange, decide_eq_true_eq]
  omega

/-- Every next state of every instruction is one of the shapes. -/
theorem exec_effect {i : Instr} (h : exec i s = .next t) : Effect i.operandCount s t := by
  cases i with
  | nop => cases h; exact .nothing
  | hlt => cases h; exact .stop
  | ldi r imm => exact oneReg_effect (fun i _ hu => by cases hu; exact .register i _) h
  | ld a b => exact execLd_effect h
  | st a b => exact execSt_effect h
  | push r => exact execPush_effect h
  | pop r => exact execPop_effect h
  | prn r => exact oneReg_effect (fun i _ hu => by cases hu; exact .output _ (dec_inRange _)) h
  | pra r => exact oneReg_effect (fun i _ hu => by cases hu; exact .output _ (chr_inRange _)) h
  | call r => exact execCall_effect h
  | ret => exact execRet_effect h
  | jmp r => exact oneReg_effect (fun i _ hu => by cases hu; exact .jump _) h
  | jeq r => exact jumpIf_effect h
  | jne r => exact jumpIf_effect h
  | jgt r => exact jumpIf_effect h
  | jlt r => exact jumpIf_effect h
  | jle r => exact jumpIf_effect h
  | jge r => exact jumpIf_effect h
  | add a b => simp only [exec, execAdd] at h; exact aluBinary_effect h
  | sub a b => simp only [exec, execSub] at h; exact aluBinary_effect h
  | mul a b => simp only [exec, execMul] at h; exact aluBinary_effect h
  | div a b => exact aluBinary_effect h
  | mod a b => exact aluBinary_effect h
  | inc r => exact aluUnary_effect h
  | dec r => exact aluUnary_effect h
  | cmp a b => exact execCmp_effect h
  | and a b => simp only [exec, execAnd] at h; exact aluBinary_effect h
  | or a b => simp only [exec, execOr] at h; exact aluBinary_effect h
  | xor a b => simp only [exec, execXor] at h; exact aluBinary_effect h
  | not r => exact aluUnary_effect h
  | shl a b => simp only [exec, execShl] at h; exact aluBinary_effect h
  | shr a b => simp only [exec, execShr] at h; exact aluBinary_effect h

end Sys2Proof.Machine
end

