-- ==== Sys2Proof/Laws/PerInstr.lean ====
section
/-! SUPPORT. Statements about every instruction, made per instruction.

`BitPolicy`: the opcode byte of an instruction obeys the source's bit policy (spec/30_encoding.md rules R50,
R51, R52): NOPS is the operand count, A and C are those of its category, and the encoding has
`opcode[7:6] + 1` bytes. -/

namespace Sys2Proof.Laws.BitPolicy

def Statement (i : Instr) : Prop :=
  opcodeNops i.opcode = i.operandCount ∧ opcodeCategory i.opcode = some i.category ∧
    (encode i).length = opcodeNops i.opcode + 1

/-- An instruction whose opcode, operand count and category are known has the fields its opcode byte has. -/
theorem of_opcode {i : Instr} (op : Byte) (n : Nat) (c : Category)
    (hi : i.opcode = op ∧ i.operandCount = n ∧ i.category = c)
    (hop : opcodeNops op = n ∧ opcodeCategory op = some c) : Statement i := by
  obtain ⟨rfl, rfl, rfl⟩ := hi
  exact ⟨hop.1, hop.2, by rw [hop.1]; rfl⟩

theorem nop : Statement .nop :=
  of_opcode 0x00 0 .other ⟨rfl, rfl, rfl⟩ (by decide)
theorem hlt : Statement .hlt :=
  of_opcode 0x01 0 .other ⟨rfl, rfl, rfl⟩ (by decide)
theorem ldi (r imm : Byte) : Statement (.ldi r imm) :=
  of_opcode 0x82 2 .other ⟨rfl, rfl, rfl⟩ (by decide)
theorem ld (a b : Byte) : Statement (.ld a b) :=
  of_opcode 0x83 2 .other ⟨rfl, rfl, rfl⟩ (by decide)
theorem st (a b : Byte) : Statement (.st a b) :=
  of_opcode 0x84 2 .other ⟨rfl, rfl, rfl⟩ (by decide)
theorem push (r : Byte) : Statement (.push r) :=
  of_opcode 0x45 1 .other ⟨rfl, rfl, rfl⟩ (by decide)
theorem pop (r : Byte) : Statement (.pop r) :=
  of_opcode 0x46 1 .other ⟨rfl, rfl, rfl⟩ (by decide)
theorem prn (r : Byte) : Statement (.prn r) :=
  of_opcode 0x47 1 .other ⟨rfl, rfl, rfl⟩ (by decide)
theorem pra (r : Byte) : Statement (.pra r) :=
  of_opcode 0x48 1 .other ⟨rfl, rfl, rfl⟩ (by decide)
theorem call (r : Byte) : Statement (.call r) :=
  of_opcode 0x50 1 .controlFlow ⟨rfl, rfl, rfl⟩ (by decide)
theorem ret : Statement .ret :=
  of_opcode 0x11 0 .controlFlow ⟨rfl, rfl, rfl⟩ (by decide)
theorem jmp (r : Byte) : Statement (.jmp r) :=
  of_opcode 0x54 1 .controlFlow ⟨rfl, rfl, rfl⟩ (by decide)
theorem jeq (r : Byte) : Statement (.jeq r) :=
  of_opcode 0x55 1 .controlFlow ⟨rfl, rfl, rfl⟩ (by decide)
theorem jne (r : Byte) : Statement (.jne r) :=
  of_opcode 0x56 1 .controlFlow ⟨rfl, rfl, rfl⟩ (by decide)
theorem jgt (r : Byte) : Statement (.jgt r) :=
  of_opcode 0x57 1 .controlFlow ⟨rfl, rfl, rfl⟩ (by decide)
theorem jlt (r : Byte) : Statement (.jlt r) :=
  of_opcode 0x58 1 .controlFlow ⟨rfl, rfl, rfl⟩ (by decide)
theorem jle (r : Byte) : Statement (.jle r) :=
  of_opcode 0x59 1 .controlFlow ⟨rfl, rfl, rfl⟩ (by decide)
theorem jge (r : Byte) : Statement (.jge r) :=
  of_opcode 0x5A 1 .controlFlow ⟨rfl, rfl, rfl⟩ (by decide)
theorem add (a b : Byte) : Statement (.add a b) :=
  of_opcode 0xA0 2 .arithmeticLogic ⟨rfl, rfl, rfl⟩ (by decide)
theorem sub (a b : Byte) : Statement (.sub a b) :=
  of_opcode 0xA1 2 .arithmeticLogic ⟨rfl, rfl, rfl⟩ (by decide)
theorem mul (a b : Byte) : Statement (.mul a b) :=
  of_opcode 0xA2 2 .arithmeticLogic ⟨rfl, rfl, rfl⟩ (by decide)
theorem div (a b : Byte) : Statement (.div a b) :=
  of_opcode 0xA3 2 .arithmeticLogic ⟨rfl, rfl, rfl⟩ (by decide)
theorem mod (a b : Byte) : Statement (.mod a b) :=
  of_opcode 0xA4 2 .arithmeticLogic ⟨rfl, rfl, rfl⟩ (by decide)
theorem inc (r : Byte) : Statement (.inc r) :=
  of_opcode 0x65 1 .arithmeticLogic ⟨rfl, rfl, rfl⟩ (by decide)
theorem dec (r : Byte) : Statement (.dec r) :=
  of_opcode 0x66 1 .arithmeticLogic ⟨rfl, rfl, rfl⟩ (by decide)
theorem cmp (a b : Byte) : Statement (.cmp a b) :=
  of_opcode 0xA7 2 .arithmeticLogic ⟨rfl, rfl, rfl⟩ (by decide)
theorem and (a b : Byte) : Statement (.and a b) :=
  of_opcode 0xA8 2 .arithmeticLogic ⟨rfl, rfl, rfl⟩ (by decide)
theorem or (a b : Byte) : Statement (.or a b) :=
  of_opcode 0xAA 2 .arithmeticLogic ⟨rfl, rfl, rfl⟩ (by decide)
theorem xor (a b : Byte) : Statement (.xor a b) :=
  of_opcode 0xAB 2 .arithmeticLogic ⟨rfl, rfl, rfl⟩ (by decide)
theorem not (r : Byte) : Statement (.not r) :=
  of_opcode 0x69 1 .arithmeticLogic ⟨rfl, rfl, rfl⟩ (by decide)
theorem shl (a b : Byte) : Statement (.shl a b) :=
  of_opcode 0xAC 2 .arithmeticLogic ⟨rfl, rfl, rfl⟩ (by decide)
theorem shr (a b : Byte) : Statement (.shr a b) :=
  of_opcode 0xAD 2 .arithmeticLogic ⟨rfl, rfl, rfl⟩ (by decide)

end Sys2Proof.Laws.BitPolicy
end

