-- ==== Sys2Proof/Laws/Step.lean ====
section
/-! SUPPORT. What a step can do, said once (spec/43_executor.md rules R140, R147). -/

namespace Sys2Proof.Machine

/-- A step that answers a next state starts in a Running state, and either takes the error of its fetch or runs
the instruction fetched. -/
theorem step_next_cases {s t : State} (h : step s = .next t) :
    s.run = .running ∧
      ((∃ e, fetchInstr s = .error e ∧ t = raise e s) ∨ ∃ i, fetchInstr s = .ok i ∧ exec i s = .next t) := by
  unfold step at h
  split at h
  · cases h
  · next hr =>
    refine ⟨hr, ?_⟩
    split at h
    · next e he => cases h; exact .inl ⟨e, he, rfl⟩
    · next i hi => exact .inr ⟨i, hi, h⟩

theorem step_of_fetch_ok {s : State} {i : Instr} (hr : s.run = .running) (hf : fetchInstr s = .ok i) :
    step s = exec i s := by
  simp [step, hr, hf]

theorem step_of_fetch_error {s : State} {e : FatalError} (hr : s.run = .running)
    (hf : fetchInstr s = .error e) : step s = .next (raise e s) := by
  simp [step, hr, hf]

theorem runSteps_succ {s t : State} (k : Nat) (h : step s = .next t) :
    runSteps (k + 1) s = runSteps k t := by
  simp [runSteps, h]

/-- A byte read is the content of a cell that exists. -/
theorem memRead_eq_ok {m : Memory} {addr : Nat} {v : Byte} (h : memRead m addr = .ok v) :
    addr < 256 ∧ m.read addr = v := by
  unfold memRead at h
  split at h
  · next ha => exact ⟨ha, Except.ok.inj h⟩
  · cases h

/-- An instruction fetched lies whole in memory at PC. -/
theorem fetchInstr_ok {s : State} {i : Instr} (h : fetchInstr s = .ok i) :
    ∀ (k : Nat) (hk : k < (encode i).length),
      s.pc.toNat + k < 256 ∧ s.mem.read (s.pc.toNat + k) = (encode i)[k] :=
  fun k hk => memRead_eq_ok (readInstr_ok h k hk)

/-- The opcode fetched is at PC and the last operand byte is in memory. -/
theorem fetchInstr_bounds {s : State} {i : Instr} (h : fetchInstr s = .ok i) :
    s.mem.read s.pc.toNat = i.opcode ∧ s.pc.toNat + i.operandCount < 256 :=
  ⟨(fetchInstr_ok h 0 (Nat.succ_pos _)).2, (fetchInstr_ok h i.operandCount (Nat.lt_succ_self _)).1⟩

end Sys2Proof.Machine
end

