-- ==== Sys2Proof/Tests/Slice0.lean ====
section
/-! SUPPORT. Tests: the well-formedness smoke, the encodings of spec/30_encoding.md rule R56 written out bit by
bit, one step of each instruction with the result of spec/95_test_vectors.md (the row is named), and for each
obligation with hypotheses a state and operands that meet them. -/

namespace Sys2Proof.Tests

open Sys2Proof Sys2Proof.Machine Sys2Proof.Claims

/-! ## Helpers -/

/-- The state at `pc` with `bytes` placed there, `x0`, `x1` in R0, R1 and zero in the other registers. -/
def at_ (pc : PcWord) (bytes : List Byte) (x0 x1 : Byte) : State :=
  { State.reset with
    regs := #v[x0, x1, 0, 0, 0, 0, 0, 0], pc := pc, mem := placeBytes bytes pc.toNat [] }

/-- The same at address 0. -/
def start (bytes : List Byte) (x0 x1 : Byte) : State := at_ 0 bytes x0 x1

/-- `s` with another SP. -/
def withSp (sp : Byte) (s : State) : State := { s with sp := sp }

/-- `s` with one more cell written. -/
def withCell (a : Nat) (v : Byte) (s : State) : State := { s with mem := s.mem.write a v }

/-- `s` with other flags. -/
def withFl (fl : BitVec 3) (s : State) : State := { s with fl := fl }

/-- The state after one step, if there is one. -/
def after (s : State) : Option State :=
  match step s with
  | .next t => some t
  | .fault _ => none
  | .refused _ => none

/-- R0, R1, PC and the cause after one step. -/
def view (s : State) : Option (Byte × Byte × PcWord × Option FatalError) :=
  (after s).map fun t => (t.regs[0], t.regs[1], t.pc, t.err)

/-- SP, one cell, PC and the cause after one step. -/
def viewStack (s : State) (a : Nat) : Option (Byte × Byte × PcWord × Option FatalError) :=
  (after s).map fun t => (t.sp, t.mem.read a, t.pc, t.err)

/-- The flags, the output and PC after one step. -/
def viewOut (s : State) : Option (BitVec 3 × List OutEvent × PcWord) :=
  (after s).map fun t => (t.fl, t.out, t.pc)

/-! ## Well-formedness: one ill-formed term for each operand that is checked -/

theorem smoke_r : (Instr.push 0x08).wellFormed = false ∧ (Instr.push 0x07).wellFormed = true := by decide
theorem smoke_rr_first : (Instr.add 0x08 0x00).wellFormed = false := by decide
theorem smoke_rr_second : (Instr.st 0x00 0xFF).wellFormed = false := by decide
theorem smoke_ri : (Instr.ldi 0x09 0x00).wellFormed = false ∧ (Instr.ldi 0x00 0xFF).wellFormed = true := by
  decide
theorem smoke_z : Instr.ret.wellFormed = true := by decide

/-! ## Decoding: the binary column of rule R56, operand bytes in memory order -/

theorem test_decode_z :
    decode [0b00000000] = .ok (.nop, []) ∧ decode [0b00000001] = .ok (.hlt, []) ∧
      decode [0b00010001, 0xFF] = .ok (.ret, [0xFF]) := by decide

theorem test_decode_r_other :
    decode [0b01000101, 0x01] = .ok (.push 0x01, []) ∧ decode [0b01000110, 0x02] = .ok (.pop 0x02, []) ∧
      decode [0b01000111, 0x03] = .ok (.prn 0x03, []) ∧ decode [0b01001000, 0x04] = .ok (.pra 0x04, []) := by
  decide

theorem test_decode_r_control :
    decode [0b01010000, 0x01] = .ok (.call 0x01, []) ∧ decode [0b01010100, 0x02] = .ok (.jmp 0x02, []) ∧
      decode [0b01010101, 0x03] = .ok (.jeq 0x03, []) ∧ decode [0b01010110, 0x04] = .ok (.jne 0x04, []) ∧
      decode [0b01010111, 0x05] = .ok (.jgt 0x05, []) ∧ decode [0b01011000, 0x06] = .ok (.jlt 0x06, []) ∧
      decode [0b01011001, 0x07] = .ok (.jle 0x07, []) ∧ decode [0b01011010, 0x08] = .ok (.jge 0x08, []) := by
  decide

theorem test_decode_r_alu :
    decode [0b01100101, 0x01] = .ok (.inc 0x01, []) ∧ decode [0b01100110, 0x02] = .ok (.dec 0x02, []) ∧
      decode [0b01101001, 0x03] = .ok (.not 0x03, []) := by decide

theorem test_decode_rr_memory :
    decode [0b10000010, 0x01, 0xFE] = .ok (.ldi 0x01 0xFE, []) ∧
      decode [0b10000011, 0x01, 0x02] = .ok (.ld 0x01 0x02, []) ∧
      decode [0b10000100, 0x01, 0x02] = .ok (.st 0x01 0x02, []) := by decide

theorem test_decode_rr_arithmetic :
    decode [0b10100000, 0x01, 0x02] = .ok (.add 0x01 0x02, []) ∧
      decode [0b10100001, 0x01, 0x02] = .ok (.sub 0x01 0x02, []) ∧
      decode [0b10100010, 0x01, 0x02] = .ok (.mul 0x01 0x02, []) ∧
      decode [0b10100011, 0x01, 0x02] = .ok (.div 0x01 0x02, []) ∧
      decode [0b10100100, 0x01, 0x02] = .ok (.mod 0x01 0x02, []) ∧
      decode [0b10100111, 0x01, 0x02] = .ok (.cmp 0x01 0x02, []) := by decide

theorem test_decode_rr_logic :
    decode [0b10101000, 0x01, 0x02] = .ok (.and 0x01 0x02, []) ∧
      decode [0b10101010, 0x01, 0x02] = .ok (.or 0x01 0x02, []) ∧
      decode [0b10101011, 0x01, 0x02] = .ok (.xor 0x01 0x02, []) ∧
      decode [0b10101100, 0x01, 0x02] = .ok (.shl 0x01 0x02, []) ∧
      decode [0b10101101, 0x01, 0x02] = .ok (.shr 0x01 0x02, []) := by decide

/-- The invalid bytes vector V10 lists. -/
theorem test_decode_invalid :
    ([0x20, 0x60, 0xE0, 0x10, 0x90, 0x02, 0x42, 0x52, 0x13, 0xA5, 0xB0, 0xC0, 0xFF] : List Byte).all
      (fun op => decode [op, 0x00, 0x00] == .error (.invalidOpcode op)) = true := by decide

/-- Rule R60's own examples. -/
theorem test_text :
    (Instr.ldi 0x00 0x08).text = "LDI R0,8" ∧ (Instr.add 0x00 0x01).text = "ADD R0,R1" ∧
      Instr.hlt.text = "HLT" ∧ (Instr.prn 0x00).text = "PRN R0" := by decide

/-! ## One step of each instruction -/

/-- V1, rows 4 and 11. -/
theorem test_add : view (start [0xA0, 0x00, 0x01] 0x80 0xFF) = some (0x7F, 0xFF, 3, none) := by decide
theorem test_sub : view (start [0xA1, 0x00, 0x01] 0xCC 0xAA) = some (0x22, 0xAA, 3, none) := by decide
theorem test_mul : view (start [0xA2, 0x00, 0x01] 0xCC 0xAA) = some (0x78, 0xAA, 3, none) := by decide

/-- V2, rows 2, 8 and 3, and the zero divisor. -/
theorem test_div : view (start [0xA3, 0x00, 0x01] 0xF9 0x02) = some (0xFD, 0x02, 3, none) := by decide
theorem test_div_wraps : view (start [0xA3, 0x00, 0x01] 0x80 0xFF) = some (0x80, 0xFF, 3, none) := by decide
theorem test_mod : view (start [0xA4, 0x00, 0x01] 0x07 0xFE) = some (0x01, 0xFE, 3, none) := by decide
theorem test_mod_zero :
    view (start [0xA4, 0x00, 0x01] 0x05 0x00) = some (0x05, 0x00, 0, some .divideByZero) := by decide

/-- V3, rows 5 and 9. -/
theorem test_cmp : viewOut (start [0xA7, 0x00, 0x01] 0xFF 0x01) = some (0b100, [], 3) := by decide
theorem test_cmp_greater : viewOut (start [0xA7, 0x00, 0x01] 0x00 0x90) = some (0b010, [], 3) := by decide

/-- V4. -/
theorem test_and : view (start [0xA8, 0x00, 0x01] 0xCC 0xAA) = some (0x88, 0xAA, 3, none) := by decide
theorem test_or : view (start [0xAA, 0x00, 0x01] 0xCC 0xAA) = some (0xEE, 0xAA, 3, none) := by decide
theorem test_xor : view (start [0xAB, 0x00, 0x01] 0xCC 0xAA) = some (0x66, 0xAA, 3, none) := by decide
theorem test_inc : view (start [0x65, 0x00] 0x7F 0x01) = some (0x80, 0x01, 2, none) := by decide
theorem test_dec : view (start [0x66, 0x00] 0x00 0x01) = some (0xFF, 0x01, 2, none) := by decide
theorem test_not : view (start [0x69, 0x00] 0x0F 0x01) = some (0xF0, 0x01, 2, none) := by decide

/-- V5, rows 5 and 13. -/
theorem test_shl : view (start [0xAC, 0x00, 0x01] 0x55 0x05) = some (0xA0, 0x05, 3, none) := by decide
theorem test_shr : view (start [0xAD, 0x00, 0x01] 0x55 0x90) = some (0xFF, 0x90, 3, none) := by decide

/-- Rules R102, R103 (examples) and R114. -/
theorem test_call : viewStack (at_ 6 [0x50, 0x01] 0x00 0x20) 0xF3 = some (0xF3, 0x08, 0x20, none) := by decide
theorem test_call_at_254 :
    viewStack (at_ 254 [0x50, 0x01] 0x00 0x20) 0xF3 =
      some (0xF4, 0x00, 254, some (.addressOutOfRange 256)) := by decide
theorem test_ret :
    viewStack (withSp 0xF3 (withCell 0xF3 0x08 (start [0x11] 0x00 0x00))) 0xF3 =
      some (0xF4, 0x00, 8, none) := by decide
theorem test_ret_empty :
    viewStack (start [0x11] 0x00 0x00) 0xF4 = some (0xF4, 0x00, 0, some .stackUnderflow) := by decide

/-- Rules R104 to R110 (examples) and the table of rule R111. -/
theorem test_jmp : view (start [0x54, 0x00] 0x90 0x00) = some (0x90, 0x00, 0x90, none) := by decide
theorem test_jeq : view (withFl 0b001 (start [0x55, 0x00] 0x10 0x00)) = some (0x10, 0x00, 0x10, none) := by
  decide
theorem test_jeq_not_taken : view (at_ 9 [0x55, 0x00] 0x10 0x00) = some (0x10, 0x00, 0x0B, none) := by decide
theorem test_jne : view (start [0x56, 0x00] 0x10 0x00) = some (0x10, 0x00, 0x10, none) := by decide
theorem test_jgt : view (withFl 0b010 (start [0x57, 0x00] 0x30 0x00)) = some (0x30, 0x00, 0x30, none) := by
  decide
theorem test_jlt : view (withFl 0b100 (start [0x58, 0x00] 0x30 0x00)) = some (0x30, 0x00, 0x30, none) := by
  decide
theorem test_jle : view (withFl 0b100 (start [0x59, 0x00] 0x30 0x00)) = some (0x30, 0x00, 0x30, none) := by
  decide
theorem test_jle_not_taken :
    view (withFl 0b010 (at_ 4 [0x59, 0x00] 0x30 0x00)) = some (0x30, 0x00, 6, none) := by decide
theorem test_jge : view (withFl 0b001 (start [0x5A, 0x00] 0x30 0x00)) = some (0x30, 0x00, 0x30, none) := by
  decide
theorem test_jge_not_taken : view (start [0x5A, 0x00] 0x30 0x00) = some (0x30, 0x00, 2, none) := by decide

/-- V9. -/
theorem test_nop : view (at_ 5 [0x00] 0x00 0x00) = some (0x00, 0x00, 6, none) := by decide
theorem test_hlt :
    (after (at_ 255 [0x01] 0x00 0x00)).map (fun t => (t.run, t.err, t.pc)) = some (.halted, none, 256) := by
  decide
theorem test_ldi : view (start [0x82, 0x01, 0xFF] 0x00 0x00) = some (0x00, 0xFF, 3, none) := by decide
theorem test_ldi_bad_index :
    view (start [0x82, 0x08, 0x01] 0x00 0x00) = some (0x00, 0x00, 0, some (.addressOutOfRange 8)) := by decide
theorem test_ld : view (start [0x83, 0x00, 0x01, 0x2A] 0x00 0x03) = some (0x2A, 0x03, 3, none) := by decide
theorem test_st : viewStack (start [0x84, 0x00, 0x01] 0x02 0x07) 0x02 = some (0xF4, 0x07, 3, none) := by decide
theorem test_st_other_cell :
    viewStack (start [0x84, 0x00, 0x01] 0x40 0x2A) 0x40 = some (0xF4, 0x2A, 3, none) := by decide
theorem test_prn : viewOut (start [0x47, 0x00] 0x80 0x00) = some (0b000, [.dec (-128)], 2) := by decide
theorem test_pra : viewOut (start [0x48, 0x00] 0xFF 0x00) = some (0b000, [.chr 255], 2) := by decide

/-- Rules R125, R126 (examples). -/
theorem test_push : viewStack (start [0x45, 0x00] 0x05 0x00) 0xF3 = some (0xF3, 0x05, 2, none) := by decide
theorem test_push_full :
    viewStack (withSp 0x00 (start [0x45, 0x00] 0x05 0x00)) 0xFF = some (0x00, 0x00, 0, some .stackOverflow) := by
  decide
theorem test_pop : view (withSp 0x02 (start [0x46, 0x01, 0x05] 0x00 0x00)) = some (0x00, 0x05, 2, none) := by
  decide
theorem test_pop_clears :
    viewStack (withSp 0x02 (start [0x46, 0x01, 0x05] 0x00 0x00)) 0x02 = some (0x03, 0x00, 2, none) := by decide

/-- V10: fetch, decode and error priority. -/
theorem test_fetch_at_256 :
    view (at_ 256 [] 0x00 0x00) = some (0x00, 0x00, 256, some (.addressOutOfRange 256)) := by decide
theorem test_invalid_at_255 :
    view (at_ 255 [0xC5] 0x00 0x00) = some (0x00, 0x00, 255, some (.invalidOpcode 0xC5)) := by decide
theorem test_straddle :
    view (at_ 254 [0x82, 0x00] 0x00 0x00) = some (0x00, 0x00, 254, some (.addressOutOfRange 256)) := by decide
theorem test_first_index_first :
    view (start [0xA3, 0x0A, 0x09] 0x00 0x00) = some (0x00, 0x00, 0, some (.addressOutOfRange 10)) := by decide

/-- Rule R160's codes. -/
theorem test_error_codes :
    errCode none = 0 ∧ errCode (some (.invalidOpcode 0xFF)) = 1 ∧ errCode (some .divideByZero) = 2 ∧
      errCode (some .stackOverflow) = 3 ∧ errCode (some .stackUnderflow) = 4 ∧
      errCode (some (.addressOutOfRange 256)) = 5 := by decide

/-- An ADD placed at PC as the number the opcode table makes of its bytes runs next. -/
theorem test_withFetchWord :
    decodeTableWord 24 0x0100A0 = some (.add 0x00 0x01) ∧
      view ((start [] 0x08 0x09).withFetchWord 24 0x0100A0) = some (0x11, 0x09, 3, none) := by decide

/-! ## Witnesses: the hypotheses of each obligation are met together -/

/-- The invariant holds of a state that is not reset: one event, one flag, a full stack, PC past the end. -/
theorem witness_Inv :
    ({ State.reset with
        pc := 256, sp := 0x00, fl := 0b100, mem := [(255, 0x01)], out := [.dec (-128), .chr 255] } : State).Inv :=
  ⟨by decide, by decide, by decide, fun _ => rfl, by decide, by decide⟩

theorem witness_ResetIsTheResetTable : (255 : Nat) < 256 ∧ State.reset.mem.read 255 = 0x00 := by decide

theorem witness_StepKeepsTheInvariant :
    State.reset.Inv ∧ ∃ t, step State.reset = .next t :=
  ⟨⟨by decide, by decide, by decide, fun _ => rfl, by decide, by decide⟩, _, rfl⟩

theorem witness_EveryRunStateMeetsTheInvariant : (load [0x82, 0x00, 0x08, 0x01] State.reset).isSome = true := by
  decide

theorem witness_DecodedBytesAreTheEncoding : decode [0xAD, 0x07, 0xFF, 0x00] = .ok (.shr 0x07 0xFF, [0x00]) := by
  decide

theorem witness_OnlyTheListedBytesAreOpcodes :
    (0x52 : Byte) ∉ validOpcodes ∧ (0xFF : Byte) ∉ validOpcodes ∧ (0x00 : Byte) ∈ validOpcodes ∧
      (0xAD : Byte) ∈ validOpcodes := by decide

theorem witness_OneMnemonicPerOpcodeByte : (Instr.add 0x00 0x01).opcode = (Instr.add 0x07 0x02).opcode := by
  decide

theorem witness_StepRunsTheDecodedInstruction :
    (at_ 253 [0xA0, 0x07, 0x08] 0x00 0x00).run = .running ∧
      decode (bytesAtPc (at_ 253 [0xA0, 0x07, 0x08] 0x00 0x00)) = .ok (.add 0x07 0x08, []) := by decide

theorem witness_PlacedInstructionRunsNext :
    (at_ 253 [0x01] 0x00 0x00).run = .running ∧ (at_ 253 [0x01] 0x00 0x00).mem.wf = true ∧
      (at_ 253 [0x01] 0x00 0x00).pc.toNat + 3 ≤ 256 ∧ decodeTableWord 24 0x0100A0 = some (.add 0x00 0x01) := by
  decide

theorem witness_OpcodeFetchAboveMemoryIsFatal :
    ((at_ 256 [] 0x00 0x00).run = .running ∧ (at_ 256 [] 0x00 0x00).pc = 256) ∧
      (at_ 255 [] 0x00 0x00).pc.toNat < 256 := by decide

theorem witness_InvalidOpcodeIsFatal :
    (at_ 255 [0xC5] 0x00 0x00).run = .running ∧ (at_ 255 [0xC5] 0x00 0x00).pc.toNat < 256 ∧
      (at_ 255 [0xC5] 0x00 0x00).mem.read (at_ 255 [0xC5] 0x00 0x00).pc.toNat ∉ validOpcodes := by decide

theorem witness_OperandFetchAboveMemoryIsFatal :
    ((at_ 254 [0x82, 0x09] 0x00 0x00).run = .running ∧ (at_ 254 [0x82, 0x09] 0x00 0x00).pc.toNat < 256 ∧
      (at_ 254 [0x82, 0x09] 0x00 0x00).mem.read 254 = (Instr.ldi 0x00 0x00).opcode ∧
      254 + (Instr.ldi 0x00 0x00).operandCount > 255) ∧
    (at_ 255 [0x45] 0x00 0x00).mem.read 255 = (Instr.push 0x00).opcode ∧
      255 + (Instr.push 0x00).operandCount > 255 := by decide

theorem witness_BadRegisterIndexIsTakenFirst :
    ((Instr.div 0x00 0x09).regOperands = [0x00] ++ 0x09 :: [] ∧ ((0x00 : Byte).toNat < 8) ∧
      8 ≤ (0x09 : Byte).toNat) ∧
    (Instr.jeq 0x08).regOperands = [] ++ 0x08 :: [] ∧ 8 ≤ (0x08 : Byte).toNat := by decide

theorem witness_OwnErrorIsTaken :
    (Instr.div 0x00 0x01).wellFormed = true ∧
      ownError (.div 0x00 0x01) (start [] 0x05 0x00) = some .divideByZero ∧
      ownError (.mod 0x00 0x01) (start [] 0x05 0x00) = some .divideByZero ∧
      ownError (.call 0x00) (withSp 0x00 (at_ 254 [] 0x00 0x00)) = some (.addressOutOfRange 256) ∧
      ownError (.call 0x00) (withSp 0x00 (at_ 253 [] 0x00 0x00)) = some .stackOverflow ∧
      ownError (.push 0x00) (withSp 0x00 (start [] 0x00 0x00)) = some .stackOverflow ∧
      ownError (.pop 0x00) (start [] 0x00 0x00) = some .stackUnderflow ∧
      ownError .ret (start [] 0x00 0x00) = some .stackUnderflow := by decide

theorem witness_PcIsTheTargetOrTheAdvance :
    (Instr.call 0x07).wellFormed = true ∧ ownError (.call 0x07) (withSp 0x01 (at_ 253 [] 0x00 0x00)) = none ∧
      jumpTarget (.call 0x07) (at_ 253 [] 0x00 0x00) = some 0 ∧
      ownError .nop State.reset = none ∧ jumpTarget .nop State.reset = none := by decide

theorem witness_FatalErrorChangesOnlyRunAndCause :
    (at_ 255 [0x45] 0x00 0x00).err = none ∧
      ((after (at_ 255 [0x45] 0x00 0x00)).bind State.err) = some (.addressOutOfRange 256) := by decide

theorem witness_RunningCoreAlwaysSteps : State.reset.run = .running := by decide

theorem witness_HaltedTakesNoStep : (halt State.reset).run = .halted := by decide

theorem witness_RunEndsByHltOrFatalErrorOnly :
    ((start [0x01] 0x00 0x00).err = none ∧ (after (start [0x01] 0x00 0x00)).isSome = true) ∧
      (start [0xFF] 0x00 0x00).err = none ∧ (after (start [0xFF] 0x00 0x00)).isSome = true ∧
      (raise .stackOverflow State.reset).run = .halted := by decide

/-- Both clauses, the ST at the highest address it can have a byte behind it. -/
theorem witness_StoreIsSeenByTheNextFetch :
    ((at_ 252 [0x84, 0x00, 0x01] 0xFF 0x01).run = .running ∧
      (at_ 252 [0x84, 0x00, 0x01] 0xFF 0x01).mem.wf = true ∧
      decode (bytesAtPc (at_ 252 [0x84, 0x00, 0x01] 0xFF 0x01)) = .ok (.st (regByte 0) (regByte 1), [0x00]) ∧
      (at_ 252 [0x84, 0x00, 0x01] 0xFF 0x01).regs[(0 : Fin 8)].toNat = 252 + 3 ∧
      (at_ 252 [0x84, 0x00, 0x01] 0xFF 0x01).regs[(1 : Fin 8)] = Instr.hlt.opcode) ∧
    decode (bytesAtPc (at_ 251 [0x84, 0x00, 0x01] 0xFE 0xFF)) =
        .ok (.st (regByte 0) (regByte 1), [0x00, 0x00]) ∧
      (at_ 251 [0x84, 0x00, 0x01] 0xFE 0xFF).regs[(0 : Fin 8)].toNat = 251 + 3 ∧
      (at_ 251 [0x84, 0x00, 0x01] 0xFE 0xFF).regs[(1 : Fin 8)] ∉ validOpcodes := by decide

theorem witness_RunningThroughZerosEndsAtTheTop :
    (State.reset.run = .running ∧ State.reset.pc.toNat ≤ 256 ∧
      ∀ a, State.reset.pc.toNat ≤ a → a < 256 → State.reset.mem.read a = 0x00) ∧
    (at_ 256 [] 0x00 0x00).run = .running ∧ (at_ 256 [] 0x00 0x00).pc.toNat ≤ 256 :=
  ⟨⟨rfl, by decide, fun _ _ _ => rfl⟩, by decide, by decide⟩

theorem witness_LoaderPlacesTheProgram :
    (List.replicate 256 (0x01 : Byte)).length ≤ 256 ∧ ([] : List Byte).length ≤ 256 ∧
      256 < (List.replicate 257 (0x01 : Byte)).length :=
  ⟨by rw [List.length_replicate], by decide, by rw [List.length_replicate]; decide⟩

theorem witness_MemoryReadsBackWhatWasWritten :
    Memory.wf [(0, 0x01), (255, 0x02)] = true ∧ (255 : Nat) < 256 := by decide

theorem witness_CanonicalMemoriesWithEqualCellsAreEqual :
    Memory.wf [(0, 0x01), (255, 0x02)] = true ∧ Memory.wf (Memory.write [(255, 0x02)] 0 0x01) = true ∧
      ∀ a, a < 256 → Memory.read [(0, 0x01), (255, 0x02)] a = Memory.read (Memory.write [(255, 0x02)] 0 0x01) a :=
  ⟨by decide, by decide, fun _ _ => rfl⟩

/-- The hypotheses of both stack primitives, and of CALL, RET, PUSH and POP, at the boundary values of SP. -/
theorem witness_stack_bounds :
    (withSp 0x00 State.reset).sp = 0x00 ∧ (withSp 0x01 State.reset).sp ≠ 0x00 ∧
      State.reset.sp = Config.spInit ∧ (withSp 0xF3 State.reset).sp ≠ Config.spInit ∧
      (withSp 0x00 State.reset).sp ≠ Config.spInit := by decide

theorem witness_StackIsLastInFirstOut :
    ((withSp 0x01 State.reset).mem.wf = true ∧
      (withSp 0x01 State.reset).sp.toNat ≤ Config.spInit.toNat ∧ (withSp 0x01 State.reset).sp ≠ 0x00) ∧
    State.reset.mem.wf = true ∧ State.reset.sp.toNat ≤ Config.spInit.toNat ∧
      (List.replicate 244 (0x05 : Byte)).length ≤ State.reset.sp.toNat :=
  ⟨by decide, by decide, by decide, by rw [List.length_replicate]; decide⟩

theorem witness_ReturnGoesBackAfterTheCall :
    (withSp 0x01 (at_ 253 [0x50, 0x00] 0x20 0x00)).mem.wf = true ∧
      (withSp 0x01 (at_ 253 [0x50, 0x00] 0x20 0x00)).sp.toNat ≤ Config.spInit.toNat ∧
      (withSp 0x01 (at_ 253 [0x50, 0x00] 0x20 0x00)).sp ≠ 0x00 ∧
      (withSp 0x01 (at_ 253 [0x50, 0x00] 0x20 0x00)).pc.toNat + 2 ≤ 255 ∧
      -- the state of the RET: the SP and the return-address cell of the CALL's next state
      (after (withSp 0x01 (at_ 253 [0x50, 0x00] 0x20 0x00))).map (fun t => (t.sp, t.mem.read t.sp.toNat)) =
        some ((withSp 0x00 (start [0xFF] 0x33 0x00)).sp, (withSp 0x00 (start [0xFF] 0x33 0x00)).mem.read 0) ∧
      (withSp 0x00 (start [0xFF] 0x33 0x00)).mem.wf = true := by decide

theorem witness_DivModTruncateOrFailOnZero :
    (start [] 0x80 0xFF).regs[(1 : Fin 8)] ≠ 0x00 ∧ (start [] 0x80 0x00).regs[(1 : Fin 8)] = 0x00 := by decide

theorem witness_QuotientAndRemainderFitTogether :
    ((start [] 0x80 0xFF).regs[(1 : Fin 8)] ≠ 0x00 ∧ (start [] 0x80 0xFF).regs[(0 : Fin 8)] = 0x80 ∧
      (start [] 0x80 0xFF).regs[(1 : Fin 8)] = 0xFF) ∧
    (start [] 0xF9 0x02).regs[(1 : Fin 8)] ≠ 0x00 ∧ (start [] 0xF9 0x02).regs[(0 : Fin 8)] ≠ 0x80 := by decide

theorem witness_AluInstructionsChangeOnlyRegA :
    ((Instr.inc 0x07).category = .arithmeticLogic ∧ (Instr.inc 0x07).wellFormed = true ∧
      ownError (.inc 0x07) State.reset = none ∧ (Instr.inc 0x07).operandBytes.head? ≠ some (regByte 0)) ∧
    (Instr.cmp 0x00 0x01).category = .arithmeticLogic ∧ ownError (.cmp 0x00 0x01) State.reset = none ∧
      ownError (.div 0x00 0x01) (start [] 0x80 0xFF) = none := by decide

theorem witness_CallPushesTheReturnAddress :
    (at_ 254 [] 0x00 0x00).pc.toNat + 2 > 255 ∧
      ((withSp 0x00 (at_ 253 [] 0x00 0x00)).pc.toNat + 2 ≤ 255 ∧
        (withSp 0x00 (at_ 253 [] 0x00 0x00)).sp = 0x00) ∧
      (at_ 253 [] 0x00 0x00).pc.toNat + 2 ≤ 255 ∧ (at_ 253 [] 0x00 0x00).sp ≠ 0x00 := by decide

theorem witness_frames :
    (∃ t, exec (.ldi 0x07 0x05) State.reset = .next t) ∧ regByte 0 ∉ writes (.ldi 0x07 0x05) ∧
      storeAddr (.ldi 0x07 0x05) State.reset ≠ some 255 ∧
      (Instr.ldi 0x07 0x05).wellFormed = true ∧ ownError (.ldi 0x07 0x05) State.reset = none ∧
      Instr.ldi 0x07 0x05 ≠ .hlt :=
  ⟨⟨_, rfl⟩, by decide, by decide, by decide, by decide, by decide⟩

/-- A stored cell and the cells beside it. -/
theorem witness_OnlyTheStoredCellChanges :
    storeAddr (.st 0x00 0x01) (start [] 0xFF 0x05) = some 255 ∧
      storeAddr (.st 0x00 0x01) (start [] 0xFF 0x05) ≠ some 254 ∧
      storeAddr (.push 0x00) (withSp 0x01 State.reset) = some 0 ∧
      storeAddr .ret (withSp 0xF3 State.reset) = some 0xF3 := by decide

theorem witness_OnlyTheTabledRegistersAreRead :
    (regByte 0 ∉ reads (.shl 0x00 0x01) ∧ regByte 0 ∈ writes (.shl 0x00 0x01) ∧
      (Instr.shl 0x00 0x01).wellFormed = true ∧ ownError (.shl 0x00 0x01) State.reset = none) ∧
    regByte 2 ∉ reads (.div 0x00 0x01) := by decide

theorem witness_FlagsAreSetByCompareAndReadByJumps :
    (∀ a b, Instr.add 0x00 0x01 ≠ .cmp a b) ∧
      (∀ r, Instr.add 0x00 0x01 ≠ .jeq r ∧ Instr.add 0x00 0x01 ≠ .jne r ∧ Instr.add 0x00 0x01 ≠ .jgt r ∧
        Instr.add 0x00 0x01 ≠ .jlt r ∧ Instr.add 0x00 0x01 ≠ .jle r ∧ Instr.add 0x00 0x01 ≠ .jge r) ∧
      (∃ a b : Fin 8, Instr.cmp 0x07 0x00 = .cmp (regByte a) (regByte b)) ∧
      (∃ t, exec (.add 0x00 0x01) (withFl 0b100 State.reset) = .next t) ∧ (withFl 0b100 State.reset).fl ≠ 0b000 :=
  ⟨by simp, by simp, ⟨7, 0, rfl⟩, ⟨_, rfl⟩, by decide⟩

theorem witness_StackPointerBelongsToTheStackInstructions :
    (∀ r, Instr.ld 0x00 0x01 ≠ .push r ∧ Instr.ld 0x00 0x01 ≠ .pop r ∧ Instr.ld 0x00 0x01 ≠ .call r) ∧
      Instr.ld 0x00 0x01 ≠ .ret :=
  ⟨by simp, by simp⟩

end Sys2Proof.Tests
end

section
/-! PROOFS. How a step can end the run (spec/00_scope.md rule R9): by a fatal error taken, or by HLT; every other
instruction leaves the run state and the cause as they are. -/

namespace Sys2Proof.Machine

variable {s t : State} {a b : Byte}

/-! ## What the shared operations answer -/

/-- A computation that completes after a first part has completed that part. -/
theorem bind_eq_ok {α β : Type} {x : Except FatalError α} {f : α → Except FatalError β} {r : β}
    (h : x >>= f = .ok r) : ∃ v, x = .ok v ∧ f v = .ok r := by
  cases x with
  | error e => cases h
  | ok v => exact ⟨v, rfl, h⟩

/-- A committed next state is a fatal error taken or the computation's own. -/
theorem commit_next {r : Except FatalError State} (h : commit s r = .next t) :
    (∃ e, t = raise e s) ∨ r = .ok t := by
  rcases commit_cases s r with ⟨u, hu, hc⟩ | ⟨e, _, hc⟩ <;> rw [hc] at h <;> cases h
  · exact .inr hu
  · exact .inl ⟨e, rfl⟩

theorem oneReg_next {k : Fin 8 → Except FatalError State} (h : oneReg a s k = .next t) :
    (∃ e, t = raise e s) ∨ ∃ i, k i = .ok t :=
  (commit_next h).imp_right fun hk =>
    have ⟨i, _, hi⟩ := bind_eq_ok hk
    ⟨i, hi⟩

theorem twoRegs_next {k : Fin 8 → Fin 8 → Except FatalError State} (h : twoRegs a b s k = .next t) :
    (∃ e, t = raise e s) ∨ ∃ i j, k i j = .ok t :=
  (commit_next h).imp_right fun hk =>
    have ⟨i, _, hi⟩ := bind_eq_ok hk
    have ⟨j, _, hj⟩ := bind_eq_ok hi
    ⟨i, j, hj⟩

theorem push_next {v : Byte} (h : push v s = .ok t) :
    t = { s with sp := s.sp - 1, mem := s.mem.write (s.sp - 1).toNat v } := by
  by_cases h0 : s.sp = 0
  · rw [push_overflow v h0] at h; cases h
  · rw [push_ok v h0] at h; cases h; rfl

theorem pop_next {p : Byte × State} (h : pop s = .ok p) :
    p = (s.mem.read s.sp.toNat, { s with sp := s.sp + 1, mem := s.mem.write s.sp.toNat 0x00 }) := by
  by_cases h0 : s.sp = Config.spInit
  · rw [pop_underflow h0] at h; cases h
  · rw [pop_ok h0] at h; cases h; rfl

/-! ## The run state and the cause -/

/-- The run state and the cause of `t` are those of `s`. -/
def SameRun (s t : State) : Prop := t.run = s.run ∧ t.err = s.err

/-- From `s` to `t` a fatal error is taken, or the run state and the cause stay. -/
def RaisesOrSameRun (s t : State) : Prop := (∃ e, t = raise e s) ∨ SameRun s t

theorem oneReg_sameRun {k : Fin 8 → Except FatalError State} (h : oneReg a s k = .next t)
    (hk : ∀ i, k i = .ok t → SameRun s t) : RaisesOrSameRun s t :=
  (oneReg_next h).imp_right fun ⟨i, hi⟩ => hk i hi

theorem twoRegs_sameRun {k : Fin 8 → Fin 8 → Except FatalError State} (h : twoRegs a b s k = .next t)
    (hk : ∀ i j, k i j = .ok t → SameRun s t) : RaisesOrSameRun s t :=
  (twoRegs_next h).imp_right fun ⟨i, j, hj⟩ => hk i j hj

theorem bind_sameRun {α : Type} {x : Except FatalError α} {f : α → State}
    (h : (do let v ← x; .ok (f v)) = Except.ok t) (hf : ∀ v, x = .ok v → SameRun s (f v)) : SameRun s t := by
  obtain ⟨v, hv, ht⟩ := bind_eq_ok h
  cases ht
  exact hf v hv

theorem aluBinary_sameRun {op : Byte → Byte → Except FatalError Byte} (h : aluBinary op a b s = .next t) :
    RaisesOrSameRun s t :=
  twoRegs_sameRun h fun _ _ hk => bind_sameRun hk fun _ _ => ⟨rfl, rfl⟩

theorem aluUnary_sameRun {op : Byte → Byte} (h : aluUnary op a s = .next t) : RaisesOrSameRun s t :=
  oneReg_sameRun h fun _ hk => by cases hk; exact ⟨rfl, rfl⟩

theorem jumpIf_sameRun {cond : BitVec 3 → Bool} (h : jumpIf cond a s = .next t) : RaisesOrSameRun s t := by
  refine oneReg_sameRun h fun i hk => ?_
  cases hk
  split <;> exact ⟨rfl, rfl⟩

theorem execLd_sameRun (h : execLd a b s = .next t) : RaisesOrSameRun s t :=
  twoRegs_sameRun h fun _ _ hk => bind_sameRun hk fun _ _ => ⟨rfl, rfl⟩

theorem execSt_sameRun (h : execSt a b s = .next t) : RaisesOrSameRun s t :=
  twoRegs_sameRun h fun _ _ hk => bind_sameRun hk fun _ _ => ⟨rfl, rfl⟩

theorem push_sameRun {u : State} {v : Byte} (h : push v s = .ok u) : SameRun s u := by
  cases push_next h
  exact ⟨rfl, rfl⟩

theorem execPush_sameRun (h : execPush a s = .next t) : RaisesOrSameRun s t :=
  oneReg_sameRun h fun _ hk => bind_sameRun hk fun _ hu => have ⟨hr, he⟩ := push_sameRun hu; ⟨hr, he⟩

theorem execPop_sameRun (h : execPop a s = .next t) : RaisesOrSameRun s t := by
  refine oneReg_sameRun h fun i hk => ?_
  obtain ⟨p, hp, ht⟩ := bind_eq_ok hk
  cases pop_next hp
  cases ht
  exact ⟨rfl, rfl⟩

theorem execCall_sameRun (h : execCall a s = .next t) : RaisesOrSameRun s t := by
  refine oneReg_sameRun h fun i hk => ?_
  dsimp only at hk
  split at hk
  · cases hk
  · exact bind_sameRun hk fun _ hu => have ⟨hr, he⟩ := push_sameRun hu; ⟨hr, he⟩

theorem execRet_sameRun (h : execRet s = .next t) : RaisesOrSameRun s t := by
  refine (commit_next h).imp_right fun hk => ?_
  obtain ⟨p, hp, ht⟩ := bind_eq_ok hk
  cases pop_next hp
  cases ht
  exact ⟨rfl, rfl⟩

/-- Every instruction but HLT leaves the run state and the cause, unless it takes a fatal error (rules R18,
R19). -/
theorem exec_sameRun {i : Instr} (hi : i ≠ .hlt) (h : exec i s = .next t) : RaisesOrSameRun s t := by
  cases i with
  | nop => cases h; exact .inr ⟨rfl, rfl⟩
  | hlt => exact absurd rfl hi
  | ldi r imm => exact oneReg_sameRun h fun _ hk => by cases hk; exact ⟨rfl, rfl⟩
  | ld a b => exact execLd_sameRun h
  | st a b => exact execSt_sameRun h
  | push r => exact execPush_sameRun h
  | pop r => exact execPop_sameRun h
  | prn r => exact oneReg_sameRun h fun _ hk => by cases hk; exact ⟨rfl, rfl⟩
  | pra r => exact oneReg_sameRun h fun _ hk => by cases hk; exact ⟨rfl, rfl⟩
  | call r => exact execCall_sameRun h
  | ret => exact execRet_sameRun h
  | jmp r => exact oneReg_sameRun h fun _ hk => by cases hk; exact ⟨rfl, rfl⟩
  | jeq r => exact jumpIf_sameRun h
  | jne r => exact jumpIf_sameRun h
  | jgt r => exact jumpIf_sameRun h
  | jlt r => exact jumpIf_sameRun h
  | jle r => exact jumpIf_sameRun h
  | jge r => exact jumpIf_sameRun h
  | cmp a b => exact twoRegs_sameRun h fun _ _ hk => by cases hk; exact ⟨rfl, rfl⟩
  | inc r => exact aluUnary_sameRun h
  | dec r => exact aluUnary_sameRun h
  | not r => exact aluUnary_sameRun h
  | add a b => exact aluBinary_sameRun (op := fun x y => .ok (aluAdd x y)) h
  | sub a b => exact aluBinary_sameRun (op := fun x y => .ok (aluSub x y)) h
  | mul a b => exact aluBinary_sameRun (op := fun x y => .ok (aluMul x y)) h
  | div a b => exact aluBinary_sameRun h
  | mod a b => exact aluBinary_sameRun h
  | and a b => exact aluBinary_sameRun (op := fun x y => .ok (x &&& y)) h
  | or a b => exact aluBinary_sameRun (op := fun x y => .ok (x ||| y)) h
  | xor a b => exact aluBinary_sameRun (op := fun x y => .ok (x ^^^ y)) h
  | shl a b => exact aluBinary_sameRun (op := fun _ y => .ok (aluShl y)) h
  | shr a b => exact aluBinary_sameRun (op := fun _ y => .ok (aluShr y)) h

/-! ## The step -/

/-- HLT is the only instruction of its opcode byte. -/
theorem opcode_eq_hlt_iff {i : Instr} : i.opcode = Instr.hlt.opcode ↔ i = .hlt := by
  refine ⟨fun h => ?_, fun h => h ▸ rfl⟩
  have hentry : i.entry = .z .hlt :=
    Option.some.inj ((decodeOpcode_opcode i).symm.trans (h ▸ decodeOpcode_opcode .hlt))
  cases i <;> cases hentry
  rfl

/-- A step takes a fatal error, or runs the HLT at PC, or runs another instruction and leaves the run state and
the cause. -/
theorem step_next_run (h : step s = .next t) :
    (∃ e, t = raise e s) ∨
      (s.pc.toNat < 256 ∧ s.mem.read s.pc.toNat = Instr.hlt.opcode ∧ t = advance 0 (halt s)) ∨
      (s.mem.read s.pc.toNat ≠ Instr.hlt.opcode ∧ SameRun s t) := by
  obtain ⟨_, ⟨e, _, ht⟩ | ⟨i, hf, hx⟩⟩ := step_next_cases h
  · exact .inl ⟨e, ht⟩
  · obtain ⟨hop, hpc⟩ := fetchInstr_bounds hf
    by_cases hi : i = .hlt
    · subst hi
      cases hx
      exact .inr (.inl ⟨hpc, hop, rfl⟩)
    · have hne : s.mem.read s.pc.toNat ≠ Instr.hlt.opcode := hop ▸ mt opcode_eq_hlt_iff.1 hi
      exact (exec_sameRun hi hx).imp_right fun hs => .inr ⟨hne, hs⟩

/-- Settles O21: of the three things a step can do, a fatal error and HLT end the run, each with its cause, and
the third leaves the core Running without a cause. -/
theorem runEndsByHltOrFatalErrorOnly : Obligations.RunEndsByHltOrFatalErrorOnly := by
  refine ⟨fun s t herr h => ?_, fun s t hr h => ?_⟩
  · have hrun : s.run = .running := (step_next_cases h).1
    obtain ⟨e, rfl⟩ | ⟨hpc, hop, rfl⟩ | ⟨hop, hsr, hse⟩ := step_next_run h
    · simp
    · simp [hpc, hop]
    · simp [hop, hsr, hse, hrun, herr]
  · simp [(step_next_cases h).1] at hr

end Sys2Proof.Machine
end

section
/-! PROOFS. Who writes and who reads FL (spec/10_state.md rule R16). The one idea: an instruction that neither
writes nor reads FL commutes with replacing FL (`IgnoresFl`); with the state's own FL as the replacement, that
also says it leaves FL as it is. CMP and the conditional jumps are treated apart. -/

namespace Sys2Proof.Machine

variable {s t : State} {a b : Byte}

/-! ## Replacing FL -/

/-- The state with FL replaced. -/
def setFl (f : BitVec 3) (s : State) : State := { s with fl := f }

@[simp] theorem setFl_pc (f : BitVec 3) (s : State) : (setFl f s).pc = s.pc := rfl

/-- An instruction's meaning that commutes with replacing FL. -/
def IgnoresFl (m : State → Result) : Prop :=
  ∀ s f, ∃ t, m s = .next t ∧ m (setFl f s) = .next (setFl f t)

/-- What commutes with replacing FL leaves FL as it is. -/
theorem IgnoresFl.keeps_fl {m : State → Result} (hm : IgnoresFl m) (h : m s = .next t) : t.fl = s.fl := by
  obtain ⟨u, hu, hu'⟩ := hm s s.fl
  cases hu.symm.trans h
  have ht : t = setFl s.fl t := Host.Outcome.next.inj (h.symm.trans hu')
  calc t.fl = (setFl s.fl t).fl := congrArg State.fl ht
    _ = s.fl := rfl

/-! ## The shared operations -/

theorem commit_ignoresFl {k : State → Except FatalError State}
    (hk : ∀ s f, k (setFl f s) = (k s).map (setFl f)) : IgnoresFl fun s => commit s (k s) := by
  intro s f
  dsimp only
  rw [hk]
  cases k s with
  | ok t => exact ⟨t, rfl, rfl⟩
  | error e => exact ⟨raise e s, rfl, rfl⟩

theorem oneReg_ignoresFl {k : Fin 8 → State → Except FatalError State}
    (hk : ∀ i s f, k i (setFl f s) = (k i s).map (setFl f)) : IgnoresFl fun s => oneReg a s (k · s) := by
  refine commit_ignoresFl fun s f => ?_
  cases regIndex a with
  | ok i => exact hk i s f
  | error e => rfl

theorem twoRegs_ignoresFl {k : Fin 8 → Fin 8 → State → Except FatalError State}
    (hk : ∀ i j s f, k i j (setFl f s) = (k i j s).map (setFl f)) :
    IgnoresFl fun s => twoRegs a b s (k · · s) := by
  refine commit_ignoresFl fun s f => ?_
  cases regIndex a with
  | ok i =>
    cases regIndex b with
    | ok j => exact hk i j s f
    | error e => rfl
  | error e => rfl

/-- A first part whose value `g` carries over, and a rest that commutes with replacing FL after `g`. -/
theorem bind_setFl {α : Type} {x x' : Except FatalError α} {g : α → α} {k k' : α → Except FatalError State}
    {f : BitVec 3} (hx : x' = x.map g) (hk : ∀ v, k' (g v) = (k v).map (setFl f)) :
    (x' >>= k') = (x >>= k).map (setFl f) := by
  subst hx
  cases x with
  | ok v => exact hk v
  | error e => rfl

/-- The same where the first part does not depend on FL. -/
theorem bind_setFl_same {α : Type} {x : Except FatalError α} {k k' : α → Except FatalError State}
    {f : BitVec 3} (hk : ∀ v, k' v = (k v).map (setFl f)) : (x >>= k') = (x >>= k).map (setFl f) :=
  bind_setFl (g := id) (congrFun Except.map_id x).symm hk

theorem aluBinary_ignoresFl (op : Byte → Byte → Except FatalError Byte) : IgnoresFl (aluBinary op a b) :=
  twoRegs_ignoresFl fun _ _ _ _ => bind_setFl_same fun _ => rfl

theorem aluUnary_ignoresFl (op : Byte → Byte) : IgnoresFl (aluUnary op a) :=
  oneReg_ignoresFl fun _ _ _ => rfl

theorem push_setFl (v : Byte) (s : State) (f : BitVec 3) : push v (setFl f s) = (push v s).map (setFl f) := by
  by_cases h : s.sp = 0
  · rw [push_overflow v h, push_overflow v (s := setFl f s) h]; rfl
  · rw [push_ok v h, push_ok v (s := setFl f s) h]; rfl

theorem pop_setFl (s : State) (f : BitVec 3) :
    pop (setFl f s) = (pop s).map fun p => (p.1, setFl f p.2) := by
  by_cases h : s.sp = Config.spInit
  · rw [pop_underflow h, pop_underflow (s := setFl f s) h]; rfl
  · rw [pop_ok h, pop_ok (s := setFl f s) h]; rfl

/-! ## The instructions that use the stack -/

theorem execPush_ignoresFl : IgnoresFl (execPush a) :=
  oneReg_ignoresFl fun _ s f => bind_setFl (push_setFl _ s f) fun _ => rfl

theorem execPop_ignoresFl : IgnoresFl (execPop a) :=
  oneReg_ignoresFl fun _ s f => bind_setFl (pop_setFl s f) fun _ => rfl

theorem execCall_ignoresFl : IgnoresFl (execCall a) := by
  refine oneReg_ignoresFl fun _ s f => ?_
  by_cases hp : s.pc.toNat + 2 > 255
  · simp only [setFl_pc, hp, if_true]
    rfl
  · simp only [setFl_pc, hp, if_false]
    exact bind_setFl (push_setFl _ s f) fun _ => rfl

theorem execRet_ignoresFl : IgnoresFl execRet :=
  commit_ignoresFl fun s f => bind_setFl (pop_setFl s f) fun _ => rfl

/-! ## The conditional jumps -/

/-- A conditional jump reads FL and leaves it. -/
theorem jumpIf_fl {cond : BitVec 3 → Bool} (h : jumpIf cond a s = .next t) : t.fl = s.fl := by
  obtain ⟨e, rfl⟩ | ⟨i, hi⟩ := oneReg_next h
  · rfl
  · cases hi
    split <;> rfl

/-- The instruction is none of the six conditional jumps. -/
def NotCondJump (i : Instr) : Prop :=
  ∀ r, i ≠ .jeq r ∧ i ≠ .jne r ∧ i ≠ .jgt r ∧ i ≠ .jlt r ∧ i ≠ .jle r ∧ i ≠ .jge r

theorem notCondJump_or_jumpIf (i : Instr) :
    NotCondJump i ∨ ∃ cond r, ∀ s, exec i s = jumpIf cond r s := by
  cases i with
  | jeq r => exact .inr ⟨condEq, r, fun _ => rfl⟩
  | jne r => exact .inr ⟨condNe, r, fun _ => rfl⟩
  | jgt r => exact .inr ⟨condGt, r, fun _ => rfl⟩
  | jlt r => exact .inr ⟨condLt, r, fun _ => rfl⟩
  | jle r => exact .inr ⟨condLe, r, fun _ => rfl⟩
  | jge r => exact .inr ⟨condGe, r, fun _ => rfl⟩
  | _ => exact .inl fun r => by simp

/-! ## The comparison -/

/-- The three flags of a comparison are its three outcomes, of which exactly one is the case (rule R77). -/
theorem compareFlags_oneHot (x y : Byte) :
    [flagL (compareFlags x y), flagG (compareFlags x y), flagE (compareFlags x y)].count true = 1 := by
  have unpack : ∀ l g e : Bool,
      [flagL (packFlags l g e), flagG (packFlags l g e), flagE (packFlags l g e)] = [l, g, e] := by decide
  rw [compareFlags, unpack]
  obtain h | h | h := Int.lt_trichotomy x.toInt y.toInt
  · simp [h, Int.ne_of_lt h, Int.le_of_lt h]
  · simp [h]
  · simp [h, Int.ne_of_gt h, Int.le_of_lt h]

theorem compareFlags_ne_zero (x y : Byte) : compareFlags x y ≠ 0b000 := by
  intro h
  have hcount := compareFlags_oneHot x y
  rw [h] at hcount
  exact absurd hcount (by decide)

theorem execCmp_regByte (i j : Fin 8) (s : State) :
    exec (.cmp (regByte i) (regByte j)) s =
      .next (advance 2 (setFl (compareFlags (readReg s i) (readReg s j)) s)) :=
  twoRegs_regByte i j s _

/-- Two operand bytes name two registers, or their check raises one error in every state. -/
theorem twoRegs_cases (a b : Byte) :
    (∃ i j : Fin 8, a = regByte i ∧ b = regByte j) ∨
      (¬ ∃ i j : Fin 8, a = regByte i ∧ b = regByte j) ∧ ∃ e, ∀ s k, twoRegs a b s k = .next (raise e s) := by
  have not_regByte {c : Byte} (hc : 8 ≤ c.toNat) (r : Fin 8) : c ≠ regByte r := by
    rintro rfl
    rw [regByte_toNat] at hc
    omega
  by_cases ha : a.toNat < 8
  · by_cases hb : b.toNat < 8
    · obtain ⟨i, rfl⟩ := exists_regByte ha
      obtain ⟨j, rfl⟩ := exists_regByte hb
      exact .inl ⟨i, j, rfl, rfl⟩
    · obtain ⟨i, rfl⟩ := exists_regByte ha
      exact .inr ⟨fun ⟨_, j, _, hj⟩ => not_regByte (by omega) j hj, _, twoRegs_error_second i (by omega)⟩
  · exact .inr ⟨fun ⟨i, _, hi, _⟩ => not_regByte (by omega) i hi, _, twoRegs_error_first (by omega) b⟩

/-- CMP leaves FL when it takes an error, and writes a comparison's flags when it completes. -/
theorem execCmp_next (h : exec (.cmp a b) s = .next t) : t.fl = s.fl ∨ ∃ x y, t.fl = compareFlags x y := by
  obtain ⟨e, rfl⟩ | ⟨i, j, hij⟩ := twoRegs_next h
  · exact .inl rfl
  · cases hij
    exact .inr ⟨_, _, rfl⟩

/-! ## Every instruction -/

/-- Every instruction but CMP and the conditional jumps commutes with replacing FL. -/
theorem exec_ignoresFl {i : Instr} (hc : ∀ a b, i ≠ .cmp a b) (hj : NotCondJump i) : IgnoresFl (exec i) := by
  cases i with
  | nop => exact fun s f => ⟨advance 0 s, rfl, rfl⟩
  | hlt => exact fun s f => ⟨advance 0 (halt s), rfl, rfl⟩
  | ldi r imm => exact oneReg_ignoresFl fun _ _ _ => rfl
  | ld a b => exact twoRegs_ignoresFl fun _ _ _ _ => bind_setFl_same fun _ => rfl
  | st a b => exact twoRegs_ignoresFl fun _ _ _ _ => bind_setFl_same fun _ => rfl
  | push r => exact execPush_ignoresFl
  | pop r => exact execPop_ignoresFl
  | prn r => exact oneReg_ignoresFl fun _ _ _ => rfl
  | pra r => exact oneReg_ignoresFl fun _ _ _ => rfl
  | call r => exact execCall_ignoresFl
  | ret => exact execRet_ignoresFl
  | jmp r => exact oneReg_ignoresFl fun _ _ _ => rfl
  | jeq r | jne r | jgt r | jlt r | jle r | jge r => exact absurd (hj r) (by simp)
  | cmp a b => exact absurd rfl (hc a b)
  | inc r => exact aluUnary_ignoresFl _
  | dec r => exact aluUnary_ignoresFl _
  | not r => exact aluUnary_ignoresFl _
  | add a b => exact aluBinary_ignoresFl (fun x y => .ok (aluAdd x y))
  | sub a b => exact aluBinary_ignoresFl (fun x y => .ok (aluSub x y))
  | mul a b => exact aluBinary_ignoresFl (fun x y => .ok (aluMul x y))
  | div a b => exact aluBinary_ignoresFl _
  | mod a b => exact aluBinary_ignoresFl _
  | and a b => exact aluBinary_ignoresFl (fun x y => .ok (x &&& y))
  | or a b => exact aluBinary_ignoresFl (fun x y => .ok (x ||| y))
  | xor a b => exact aluBinary_ignoresFl (fun x y => .ok (x ^^^ y))
  | shl a b => exact aluBinary_ignoresFl (fun _ y => .ok (aluShl y))
  | shr a b => exact aluBinary_ignoresFl (fun _ y => .ok (aluShr y))

/-- Every instruction but CMP leaves FL as it is. -/
theorem exec_fl {i : Instr} (hc : ∀ a b, i ≠ .cmp a b) (h : exec i s = .next t) : t.fl = s.fl := by
  obtain hj | ⟨cond, r, hx⟩ := notCondJump_or_jumpIf i
  · exact (exec_ignoresFl hc hj).keeps_fl h
  · exact jumpIf_fl ((hx s).symm.trans h)

/-- CMP does not read FL: what it answers from two states that differ in FL differs at most in FL, and not at all
where it writes FL. -/
theorem execCmp_setFl (a b : Byte) (s : State) (f : BitVec 3) :
    ∃ t t', exec (.cmp a b) s = .next t ∧ exec (.cmp a b) (setFl f s) = .next t' ∧ t' = setFl t'.fl t ∧
      ((∃ i j : Fin 8, Instr.cmp a b = .cmp (regByte i) (regByte j)) → t' = t) := by
  obtain ⟨i, j, rfl, rfl⟩ | ⟨hbad, e, he⟩ := twoRegs_cases a b
  · exact ⟨_, _, execCmp_regByte i j s, execCmp_regByte i j (setFl f s), rfl, fun _ => rfl⟩
  · refine ⟨_, _, he s _, he (setFl f s) _, rfl, fun ⟨i, j, hij⟩ => absurd ⟨i, j, ?_⟩ hbad⟩
    exact Instr.cmp.inj hij

/-- No instruction takes FL back to no flag set. -/
theorem exec_fl_ne_zero {i : Instr} (h : exec i s = .next t) (h0 : s.fl ≠ 0b000) : t.fl ≠ 0b000 := by
  by_cases hc : ∃ a b, i = .cmp a b
  · obtain ⟨a, b, rfl⟩ := hc
    obtain hfl | ⟨x, y, hfl⟩ := execCmp_next h <;> rw [hfl]
    · exact h0
    · exact compareFlags_ne_zero x y
  · rwa [exec_fl (fun a b hi => hc ⟨a, b, hi⟩) h]

/-- Settles O54: CMP writes the flags of one comparison, every other instruction keeps FL, and all but the
conditional jumps commute with replacing it. -/
theorem flagsAreSetByCompareAndReadByJumps : Obligations.FlagsAreSetByCompareAndReadByJumps := by
  refine ⟨fun a b s => ⟨_, execCmp_regByte a b s, ?_⟩, fun i s t => exec_fl, fun i s f hj => ?_,
    fun i s t => exec_fl_ne_zero⟩
  · exact compareFlags_oneHot _ _
  · by_cases hc : ∃ a b, i = .cmp a b
    · obtain ⟨a, b, rfl⟩ := hc
      exact execCmp_setFl a b s f
    · obtain ⟨t, ht, ht'⟩ := exec_ignoresFl (fun a b hi => hc ⟨a, b, hi⟩) hj s f
      exact ⟨t, setFl f t, ht, ht', rfl, fun ⟨_, _, hi⟩ => absurd ⟨_, _, hi⟩ hc⟩

end Sys2Proof.Machine
end

section
/-! PROOFS. Nine ALU instructions whose operation is total (spec/40_alu.md rules R70 to R72, R75, R76, R78 to R81). The
one idea: each of them is one of two shapes, and the whole next state of a shape is said once for every total operation;
an instruction's statement is its shape's at its own operation. -/

namespace Sys2Proof.Machine

/-! ## The whole next state of the two shapes (rule R84) -/

/-- Two registers and an operation that cannot fail: the result in reg_a, PC past the three bytes. -/
theorem aluBinary_total (op : Byte → Byte → Byte) (a b : Fin 8) (s : State) :
    aluBinary (fun x y => .ok (op x y)) (regByte a) (regByte b) s =
      .next { s with regs := s.regs.set a (op s.regs[a] s.regs[b]), pc := s.pc + 3 } :=
  aluBinary_ok rfl

/-- One register: the result in reg_a, PC past the two bytes. -/
theorem aluUnary_total (op : Byte → Byte) (a : Fin 8) (s : State) :
    aluUnary op (regByte a) s = .next { s with regs := s.regs.set a (op s.regs[a]), pc := s.pc + 2 } :=
  aluUnary_regByte op a s

/-! ## The instructions -/

/-- Settles O31: the binary shape at the three wrapped operations. -/
theorem addSubMulWriteTheWrappedResult : Obligations.AddSubMulWriteTheWrappedResult := fun a b s =>
  ⟨⟨rfl, aluBinary_total aluAdd a b s⟩, ⟨rfl, aluBinary_total aluSub a b s⟩, ⟨rfl, aluBinary_total aluMul a b s⟩⟩

/-- Settles O32: the unary shape at the two counts by one. -/
theorem incDecCountByOne : Obligations.IncDecCountByOne := fun a s =>
  ⟨⟨rfl, aluUnary_total aluInc a s⟩, ⟨rfl, aluUnary_total aluDec a s⟩⟩

/-- Settles O33: the two shapes at the bitwise operations, whose bits are the operation on the bits. Only NOT
needs `k < 8`: past the width every bit reads as 0, and its complement is not 0. -/
theorem bitwiseInstructionsWorkBitByBit : Obligations.BitwiseInstructionsWorkBitByBit := by
  intro a b s
  refine ⟨⟨rfl, _, aluBinary_total (· &&& ·) a b s, fun k _ => ?and⟩,
    ⟨rfl, _, aluBinary_total (· ||| ·) a b s, fun k _ => ?or⟩,
    ⟨rfl, _, aluBinary_total (· ^^^ ·) a b s, fun k _ => ?xor⟩,
    ⟨rfl, _, aluUnary_total (~~~ ·) a s, fun k hk => ?not⟩⟩
  case and => exact BitVec.getLsbD_and
  case or => exact BitVec.getLsbD_or
  case xor => exact BitVec.getLsbD_xor
  case not => simp [hk]

end Sys2Proof.Machine
end

section
/-! PROOFS. Control flow: the stack primitives and their laws (spec/41_control_flow.md rules R100, R101, R113), the
jumps (rules R104 to R110) and RET (rule R103). The one idea of the stack laws: pushing values and popping as many
leaves SP and the cells from SP up as they were (`Balanced`), so the value pushed before them is found again. -/

namespace Sys2Proof.Machine

open Sys2Proof.Claims

/-! ## The stack primitives (rules R100, R101) -/

/-- A write stores one cell. -/
theorem storedOne_write (m : Memory) (addr : Nat) (v : Byte) : StoredOne m (m.write addr v) addr v :=
  ⟨Memory.read_write_same m addr v, Memory.read_write_other m addr v⟩

/-- SP does not wrap when it is decremented, if the stack is not full. -/
theorem sub_one_toNat {b : Byte} (h : b ≠ 0x00) : (b - 1).toNat = b.toNat - 1 := by
  bv_omega

/-- Settles O27: the cell at the decremented SP is the one below the old SP. -/
theorem pushDecrementsThenStores : Obligations.PushDecrementsThenStores := fun v s => by
  refine ⟨push_overflow v, fun h => ⟨_, push_ok v h, rfl, ?_⟩⟩
  rw [← sub_one_toNat h]
  exact storedOne_write ..

/-- Settles O28: the cell at SP is read and then written with zero. -/
theorem popReadsClearsThenIncrements : Obligations.PopReadsClearsThenIncrements := fun _ =>
  ⟨pop_underflow, fun h => ⟨_, pop_ok h, rfl, storedOne_write ..⟩⟩

/-- A push keeps memory canonical. -/
theorem push_wf {v : Byte} {s t : State} (h : push v s = .ok t) (hwf : s.mem.wf = true) : t.mem.wf = true := by
  rw [push_next h]
  exact Memory.wf_write _ _ _ hwf (s.sp - 1).isLt

/-- A pop keeps memory canonical. -/
theorem pop_wf {v : Byte} {s t : State} (h : pop s = .ok (v, t)) (hwf : s.mem.wf = true) : t.mem.wf = true := by
  cases pop_next h
  exact Memory.wf_write _ _ _ hwf s.sp.isLt

/-! ## The stack laws (rule R113) -/

/-- `u` has the SP of `s` and the cells of `s` from SP up, in canonical memory. -/
structure Balanced (s u : State) : Prop where
  sp : u.sp = s.sp
  wf : u.mem.wf = true
  cells : ∀ a, s.sp.toNat ≤ a → u.mem.read a = s.mem.read a

theorem Balanced.refl {s : State} (hwf : s.mem.wf = true) : Balanced s s :=
  ⟨rfl, hwf, fun _ _ => rfl⟩

/-- A pop in a state balanced with the one a push left answers the value pushed, restores SP and clears the cell
used. -/
theorem pop_of_balanced_push {v : Byte} {s t u : State} (hwf : s.mem.wf = true)
    (hle : s.sp.toNat ≤ Config.spInit.toNat) (h0 : s.sp ≠ 0x00) (ht : push v s = .ok t) (hu : Balanced t u) :
    ∃ w, pop u = .ok (v, w) ∧ w = { u with sp := s.sp, mem := w.mem } ∧
      StoredOne u.mem w.mem (s.sp.toNat - 1) 0x00 := by
  obtain ⟨t', ht', hpush, hstored⟩ := (pushDecrementsThenStores v s).2 h0
  obtain rfl : t = t' := Except.ok.inj (ht.symm.trans ht')
  have htsp : t.sp = s.sp - 1 := congrArg State.sp hpush
  have haddr : t.sp.toNat = s.sp.toNat - 1 := by rw [htsp, sub_one_toNat h0]
  have hne : u.sp ≠ Config.spInit := by
    intro h
    have hpos : s.sp.toNat ≠ 0 := fun hz => h0 (BitVec.eq_of_toNat_eq hz)
    rw [← h, hu.sp] at hle
    omega
  have hval : u.mem.read u.sp.toNat = v := by
    rw [hu.sp, hu.cells _ le_rfl, haddr]
    exact hstored.1 hwf
  obtain ⟨w, hw, hpop, hclear⟩ := (popReadsClearsThenIncrements u).2 hne
  rw [hval] at hw
  rw [hu.sp, haddr] at hclear
  rw [hu.sp, htsp, BitVec.sub_add_cancel] at hpop
  exact ⟨w, hw, hpop, hclear⟩

/-- Popping `n` values and then one more is popping `n + 1`. -/
theorem popMany_succ {n : Nat} {s t u : State} {vs : List Byte} {v : Byte} (h : popMany n s = .ok (vs, t))
    (hv : pop t = .ok (v, u)) : popMany (n + 1) s = .ok (vs ++ [v], u) := by
  induction n generalizing s vs with
  | zero =>
    cases h
    simp [popMany, hv, bind, Except.bind]
  | succ n ih =>
    obtain ⟨⟨w, s'⟩, hw, h⟩ := bind_eq_ok h
    obtain ⟨⟨ws, t'⟩, hws, h⟩ := bind_eq_ok h
    cases h
    rw [popMany, hw]
    show (popMany (n + 1) s' >>= _) = _
    rw [ih hws]
    rfl

/-- Values that fit on the stack pop in the reverse of the order pushed, and the stack is then as before. -/
theorem popMany_pushAll (vs : List Byte) {s : State} (hwf : s.mem.wf = true)
    (hle : s.sp.toNat ≤ Config.spInit.toNat) (hlen : vs.length ≤ s.sp.toNat) :
    ∃ t u, pushAll vs s = .ok t ∧ popMany vs.length t = .ok (vs.reverse, u) ∧ Balanced s u := by
  induction vs generalizing s with
  | nil => exact ⟨s, s, rfl, rfl, .refl hwf⟩
  | cons v vs ih =>
    rw [List.length_cons] at hlen
    have h0 : s.sp ≠ 0x00 := by
      intro h
      simp [h] at hlen
    obtain ⟨p, hp, hpush, hstored⟩ := (pushDecrementsThenStores v s).2 h0
    have haddr : p.sp.toNat = s.sp.toNat - 1 := by rw [hpush]; exact sub_one_toNat h0
    obtain ⟨t, u, ht, hu, hbal⟩ := ih (push_wf hp hwf) (by omega) (by omega)
    obtain ⟨w, hw, hpop, hclear⟩ := pop_of_balanced_push hwf hle h0 hp hbal
    have hcells : ∀ a, s.sp.toNat ≤ a → w.mem.read a = s.mem.read a := by
      intro a ha
      calc w.mem.read a = u.mem.read a := hclear.2 a (by omega)
        _ = p.mem.read a := hbal.cells a (by omega)
        _ = s.mem.read a := hstored.2 a (by omega)
    refine ⟨t, w, ?_, ?_, ⟨by rw [hpop], pop_wf hw hbal.wf, hcells⟩⟩
    · rw [pushAll, hp]
      exact ht
    · rw [List.reverse_cons]
      exact popMany_succ hu hw

/-- Settles O29: the pop follows the push at once in the first law; the second is `popMany_pushAll`. -/
theorem stackIsLastInFirstOut : Obligations.StackIsLastInFirstOut := by
  refine ⟨fun v s hwf hle h0 => ?_, fun vs s hwf hle hlen => ?_⟩
  · obtain ⟨t, ht, hpush, hstored⟩ := (pushDecrementsThenStores v s).2 h0
    obtain ⟨u, hu, hpop, hclear⟩ := pop_of_balanced_push hwf hle h0 ht (.refl (push_wf ht hwf))
    refine ⟨t, u, ht, hu, ?_, fun _ => hclear.1 (push_wf ht hwf), fun a ha => ?_⟩
    · rw [hpop, hpush]
    · rw [hclear.2 a ha, hstored.2 a ha]
  · obtain ⟨t, u, ht, hu, hbal⟩ := popMany_pushAll vs hwf hle hlen
    exact ⟨t, u, ht, hu, hbal.sp⟩

/-! ## The jumps (rules R104 to R110) -/

/-- The zero extension is the PC value of the unsigned reading. -/
theorem zext9_eq_ofNat (v : Byte) : zext9 v = BitVec.ofNat 9 v.toNat :=
  (BitVec.ofNat_toNat 9 v).symm

/-- Settles O41: the operand check passes and the target is the unsigned reading. -/
theorem jmpGoesToTheRegister : Obligations.JmpGoesToTheRegister := fun r s => by
  refine ⟨rfl, ?_⟩
  rw [← zext9_eq_ofNat]
  exact oneReg_regByte r s _

/-- The whole next state of a conditional jump whose condition is `p`. -/
theorem jumpIf_of_iff {cond : BitVec 3 → Bool} {p : Prop} [Decidable p] (r : Fin 8) {s : State}
    (h : cond s.fl = true ↔ p) :
    jumpIf cond (regByte r) s = .next { s with pc := if p then s.regs[r].setWidth 9 else s.pc + 2 } := by
  rw [jumpIf_regByte]
  by_cases hp : p
  · rw [if_pos (h.2 hp), if_pos hp]; rfl
  · rw [if_neg (mt h.1 hp), if_neg hp]; rfl

/-- Settles O42: each is the shape `jumpIf` at its own condition; JNE's is the negation of E. -/
theorem conditionalJumpsTestTheirFlags : Obligations.ConditionalJumpsTestTheirFlags := by
  intro r s
  have hne : condNe s.fl = true ↔ ¬flagE s.fl = true := by simp [condNe]
  have hle : condLe s.fl = true ↔ flagE s.fl = true ∨ flagL s.fl = true := Bool.or_eq_true_iff
  have hge : condGe s.fl = true ↔ flagE s.fl = true ∨ flagG s.fl = true := Bool.or_eq_true_iff
  refine ⟨⟨rfl, jumpIf_of_iff r .rfl⟩, ⟨rfl, ?_⟩, ⟨rfl, jumpIf_of_iff r .rfl⟩, ⟨rfl, jumpIf_of_iff r .rfl⟩,
    ⟨rfl, jumpIf_of_iff r hle⟩, ⟨rfl, jumpIf_of_iff r hge⟩⟩
  rw [← ite_not]
  exact jumpIf_of_iff r hne

/-! ## RET (rule R103) -/

theorem execRet_of_pop_error {s : State} {e : FatalError} (h : pop s = .error e) :
    exec .ret s = .next (raise e s) := by
  simp [exec, execRet, h, bind, Except.bind]

theorem execRet_of_pop_ok {s t : State} {v : Byte} (h : pop s = .ok (v, t)) :
    exec .ret s = .next (setPc (zext9 v) t) := by
  simp [exec, execRet, h, bind, Except.bind]

/-- Settles O44: RET is the pop (`PopReadsClearsThenIncrements`) with PC set to the byte it answers. -/
theorem retGoesToThePoppedByte : Obligations.RetGoesToThePoppedByte := by
  refine ⟨rfl, fun s => ⟨fun h => execRet_of_pop_error (pop_underflow h), fun h => ?_⟩⟩
  obtain ⟨t, ht, hpop, hstored⟩ := (popReadsClearsThenIncrements s).2 h
  refine ⟨_, execRet_of_pop_ok ht, ?_, hstored⟩
  rw [← zext9_eq_ofNat]
  exact congrArg (setPc _) hpop

end Sys2Proof.Machine
end

section
/-! PROOFS. Six of the other instructions: NOP and HLT (spec/42_other.md rules R120, R121), the three that load or store
a byte (rules R122 to R124), PUSH and POP (rules R125, R126). The one idea: the operand check passes at a register's own
byte, and what is left is one memory access or one stack primitive, whose law is proved already. -/

namespace Sys2Proof.Machine

/-! ## NOP and HLT (rules R120, R121) -/

/-- Settles O45: each is its advance by definition, HLT's after the normal stop. -/
theorem nopAdvancesAndHltStops : Obligations.NopAdvancesAndHltStops :=
  ⟨rfl, rfl, fun _ => ⟨rfl, rfl⟩⟩

/-! ## Loads and the store (rules R122 to R124) -/

/-- Settles O46: the register byte is checked and the immediate is not. -/
theorem ldiLoadsTheImmediate : Obligations.LdiLoadsTheImmediate := fun r _ s =>
  ⟨rfl, oneReg_regByte r s _⟩

/-- The content of a register is an address of the address space, so LD completes. -/
theorem execLd_regByte (a b : Fin 8) (s : State) :
    exec (.ld (regByte a) (regByte b)) s = .next (advance 2 (writeReg a (s.mem.read (regAddr s b)) s)) := by
  simp [exec, execLd, twoRegs_regByte, regAddr, bind, Except.bind]

/-- The content of a register is an address of the address space, so ST completes. -/
theorem execSt_regByte (a b : Fin 8) (s : State) :
    exec (.st (regByte a) (regByte b)) s =
      .next (advance 2 { s with mem := s.mem.write (regAddr s a) (readReg s b) }) := by
  simp [exec, execSt, twoRegs_regByte, regAddr, bind, Except.bind]

/-- Settles O47: the memory read at the content of reg_b succeeds. -/
theorem ldLoadsTheAddressedByte : Obligations.LdLoadsTheAddressedByte := fun a b s =>
  ⟨rfl, execLd_regByte a b s⟩

/-- Settles O48: the memory write at the content of reg_a succeeds, and a write stores one cell. -/
theorem stStoresAtTheAddress : Obligations.StStoresAtTheAddress := fun a b s =>
  ⟨rfl, _, execSt_regByte a b s, rfl, storedOne_write ..⟩

/-! ## PUSH and POP (rules R125, R126) -/

variable {r : Fin 8} {s t : State} {e : FatalError} {v : Byte}

theorem execPush_of_push_error (h : push (readReg s r) s = .error e) :
    exec (.push (regByte r)) s = .next (raise e s) := by
  simp [exec, execPush, oneReg_regByte, h, bind, Except.bind]

theorem execPush_of_push_ok (h : push (readReg s r) s = .ok t) :
    exec (.push (regByte r)) s = .next (advance 1 t) := by
  simp [exec, execPush, oneReg_regByte, h, bind, Except.bind]

theorem execPop_of_pop_error (h : pop s = .error e) : exec (.pop (regByte r)) s = .next (raise e s) := by
  simp [exec, execPop, oneReg_regByte, h, bind, Except.bind]

theorem execPop_of_pop_ok (h : pop s = .ok (v, t)) :
    exec (.pop (regByte r)) s = .next (advance 1 (writeReg r v t)) := by
  simp [exec, execPop, oneReg_regByte, h, bind, Except.bind]

/-- Settles O49: PUSH is the push of the register's content (`PushDecrementsThenStores`) and the advance. -/
theorem pushPushesTheRegister : Obligations.PushPushesTheRegister := by
  refine fun r s => ⟨rfl, fun h => execPush_of_push_error (push_overflow _ h), fun h => ?_⟩
  obtain ⟨t, ht, hpush, hstored⟩ := (pushDecrementsThenStores (readReg s r) s).2 h
  exact ⟨_, execPush_of_push_ok ht, congrArg (advance 1) hpush, hstored⟩

/-- Settles O50: POP is the pop (`PopReadsClearsThenIncrements`), the write of the byte it answers and the advance. -/
theorem popPopsIntoTheRegister : Obligations.PopPopsIntoTheRegister := by
  refine fun r s => ⟨rfl, fun h => execPop_of_pop_error (pop_underflow h), fun h => ?_⟩
  obtain ⟨t, ht, hpop, hstored⟩ := (popReadsClearsThenIncrements s).2 h
  exact ⟨_, execPop_of_pop_ok ht, congrArg (advance 1 ∘ writeReg r _) hpop, hstored⟩

end Sys2Proof.Machine
end

section
/-! PROOFS. The invariant of rule R24 (spec/10_state.md section 9): it holds at reset and of a loaded program, every
update of the state that a step can make keeps it, and so every state of a run meets it. The one idea: a step is a
shape of `Effect`, and a shape is a few updates one after the other. -/

namespace Sys2Proof.Machine

variable {s t : State}

/-! ## Reset (rule R23) -/

/-- Settles O1: every field is the table's by definition, and an empty memory reads as zero. -/
theorem resetIsTheResetTable : Obligations.ResetIsTheResetTable :=
  ⟨by decide, rfl, rfl, rfl, rfl, rfl, fun _ _ => rfl, rfl⟩

/-- Settles O2: each clause is a closed fact about the reset table. -/
theorem resetMeetsTheInvariant : Obligations.ResetMeetsTheInvariant where
  pc_le := by decide
  sp_le := by decide
  flags := .inl rfl
  err_none _ := rfl
  mem_wf := reset_mem_wf
  out_range := by simp [State.reset]

/-! ## The updates that keep the invariant -/

namespace State.Inv

theorem raise (e : FatalError) (h : s.Inv) : (raise e s).Inv :=
  { h with err_none := fun hr => by cases hr }

theorem halt (h : s.Inv) : (halt s).Inv :=
  { h with err_none := fun hr => by cases hr }

/-- The advance past an instruction that lies whole in memory ends at 256 at the latest. -/
theorem advance {n : Nat} (hn : s.pc.toNat + n < 256) (h : s.Inv) : (advance n s).Inv :=
  { h with
    pc_le := by
      rw [advance_pc, BitVec.toNat_add, BitVec.toNat_ofNat]
      omega }

/-- A register's or a cell's byte is at most 255. -/
theorem setPc (v : Byte) (h : s.Inv) : (setPc (zext9 v) s).Inv :=
  { h with
    pc_le := by
      have hv := v.isLt
      rw [setPc_pc, zext9, BitVec.toNat_setWidth]
      omega }

theorem writeReg (i : Fin 8) (v : Byte) (h : s.Inv) : (writeReg i v s).Inv :=
  { h with }

theorem setFl {f : BitVec 3} (hf : AtMostOneFlag f) (h : s.Inv) : (setFl f s).Inv :=
  { h with flags := hf }

theorem emit {e : OutEvent} (he : e.inRange = true) (h : s.Inv) : (emit e s).Inv :=
  { h with
    out_range := fun e' he' => by
      obtain hold | hnew := List.mem_append.1 he'
      · exact h.out_range e' hold
      · exact List.mem_singleton.1 hnew ▸ he }

/-- A byte is an address, so a write at one keeps memory canonical. -/
theorem store (addr v : Byte) (h : s.Inv) : ({ s with mem := s.mem.write addr.toNat v } : State).Inv :=
  { h with mem_wf := Memory.wf_write _ _ _ h.mem_wf addr.isLt }

theorem setSp {p : Byte} (hp : p.toNat ≤ Config.spInit.toNat) (h : s.Inv) : ({ s with sp := p } : State).Inv :=
  { h with sp_le := hp }

/-- A push moves SP down from above 0. -/
theorem push (v : Byte) (h0 : s.sp ≠ 0) (h : s.Inv) :
    ({ s with sp := s.sp - 1, mem := s.mem.write (s.sp - 1).toNat v } : State).Inv := by
  have hsp := h.sp_le
  have hp : (s.sp - 1).toNat ≤ Config.spInit.toNat := by rw [sub_one_toNat h0]; omega
  exact (h.store (s.sp - 1) v).setSp hp

/-- A pop moves SP up from below SP_INIT. -/
theorem pop (h0 : s.sp ≠ Config.spInit) (h : s.Inv) :
    ({ s with sp := s.sp + 1, mem := s.mem.write s.sp.toNat 0x00 } : State).Inv := by
  have hle := h.sp_le
  have hp : (s.sp + 1).toNat ≤ Config.spInit.toNat := by
    have hinit : Config.spInit.toNat = 244 := rfl
    have hne : s.sp.toNat ≠ Config.spInit.toNat := mt BitVec.eq_of_toNat_eq h0
    bv_omega
  exact (h.store s.sp 0x00).setSp hp

end State.Inv

/-- A comparison sets one flag of the three. -/
theorem compareFlags_atMostOne (x y : Byte) : AtMostOneFlag (compareFlags x y) := by
  have ofCount : ∀ fl : BitVec 3, [flagL fl, flagG fl, flagE fl].count true = 1 → AtMostOneFlag fl := by decide
  exact ofCount _ (compareFlags_oneHot x y)

/-! ## Steps and runs -/

/-- Every shape of a next state keeps the invariant, if the instruction lies whole in memory. -/
theorem Effect.inv {n : Nat} (hn : s.pc.toNat + n < 256) (h : s.Inv) (he : Effect n s t) : t.Inv := by
  cases he with
  | error e => exact h.raise e
  | nothing => exact h.advance hn
  | register i v => exact (h.writeReg i v).advance hn
  | flags x y => exact (h.setFl (compareFlags_atMostOne x y)).advance hn
  | store addr v => exact (h.store addr v).advance hn
  | jump target => exact h.setPc target
  | output e hr => exact (h.emit hr).advance hn
  | stop => exact h.halt.advance hn
  | push v h0 => exact (h.push v h0).advance hn
  | call v target h0 => exact (h.push v h0).setPc target
  | pop i h0 => exact ((h.pop h0).writeReg i _).advance hn
  | ret h0 => exact (h.pop h0).setPc _

/-- Settles O3: a step takes an error or runs an instruction that lies whole in memory, whose effect is a shape. -/
theorem stepKeepsTheInvariant : Obligations.StepKeepsTheInvariant := by
  intro s t h hstep
  obtain ⟨_, ⟨e, _, rfl⟩ | ⟨i, hf, hx⟩⟩ := step_next_cases hstep
  · exact h.raise e
  · exact (exec_effect hx).inv (fetchInstr_bounds hf).2 h

/-- What every step keeps holds along a run. -/
theorem runSteps_induction {p : State → Prop} (hp : ∀ s t, p s → step s = .next t → p t) (k : Nat) {s : State}
    (h : p s) : p (runSteps k s) := by
  induction k generalizing s with
  | zero => exact h
  | succ k ih =>
    unfold runSteps
    split
    · next t ht => exact ih (hp s t h ht)
    · exact h
    · exact h

/-- Loading a program changes memory alone, and keeps it canonical. -/
theorem load_eq {bytes : List Byte} (h : load bytes s = some t) :
    t = { s with mem := placeBytes bytes Config.loadBase s.mem } := by
  unfold load at h
  split at h <;> cases h
  rfl

theorem load_inv {bytes : List Byte} (hload : load bytes s = some t) (h : s.Inv) : t.Inv := by
  rw [load_eq hload]
  exact { h with mem_wf := placeBytes_wf _ _ _ h.mem_wf }

/-- Settles O4: the invariant holds at reset, the loader and every step keep it. -/
theorem everyRunStateMeetsTheInvariant : Obligations.EveryRunStateMeetsTheInvariant := fun _ _ k hload =>
  runSteps_induction stepKeepsTheInvariant k (load_inv hload resetMeetsTheInvariant)

end Sys2Proof.Machine
end

section
/-! PROOFS. The decoder and the encoder (spec/30_encoding.md rules R55 to R58), and the fetch, which reads by the same
`readInstr`. The one idea: `readInstr` answers `i` exactly when the source has the bytes of `encode i`
(`readInstr_eq_ok` is the converse of `readInstr_ok`), so what is read from one source is read from every other that
has the same bytes. -/

namespace Sys2Proof

open Sys2Proof.Claims

variable {ε : Type} {byteAt : Nat → Except ε Byte} {invalid : Byte → ε} {i : Instr}

/-! ## The entries of the opcode map -/

/-- Every instruction is made by its entry of its operand bytes. -/
theorem exists_make (i : Instr) :
    ∃ b1 b2, i.entry.make b1 b2 = i ∧ i.operandBytes = [b1, b2].take i.entry.operands := by
  cases i with
  | nop | hlt | ret => exact ⟨0, 0, rfl, rfl⟩
  | ldi a b | ld a b | st a b | add a b | sub a b | mul a b | div a b | mod a b | cmp a b | and a b | or a b
  | xor a b | shl a b | shr a b => exact ⟨a, b, rfl, rfl⟩
  | push r | pop r | prn r | pra r | call r | jmp r | jeq r | jne r | jgt r | jlt r | jle r | jge r | inc r | dec r
  | not r => exact ⟨r, 0, rfl, rfl⟩

theorem operandCount_eq (i : Instr) : i.operandCount = i.entry.operands := by
  cases i <;> rfl

/-- The mnemonic is the entry's. -/
theorem mnemonic_eq (i : Instr) : i.mnemonic = (i.entry.make 0 0).mnemonic := by
  cases i <;> rfl

/-- Instructions of one opcode byte have one entry. -/
theorem entry_eq_of_opcode_eq {j : Instr} (h : i.opcode = j.opcode) : i.entry = j.entry :=
  Option.some.inj ((decodeOpcode_opcode i).symm.trans (h ▸ decodeOpcode_opcode j))

/-- The opcodes of the map are the bytes rule R57 lists. -/
theorem opcodes_perm : (opcodeTable.map Prod.fst).Perm validOpcodes := by decide

theorem decodeOpcode_eq_none_iff {op : Byte} : decodeOpcode op = none ↔ op ∉ validOpcodes := by
  rw [← opcodes_perm.mem_iff, decodeOpcode, Option.map_eq_none_iff, List.find?_eq_none]
  simp only [beq_iff_eq, List.mem_map, not_exists, not_and]

/-! ## Reading an instruction -/

section

variable (h0 : byteAt 0 = .ok i.opcode)
include h0

/-- The bytes after the opcode are the operands of the opcode's entry. -/
theorem readInstr_of_opcode {b1 b2 : Byte} (h1 : 0 < i.operandCount → byteAt 1 = .ok b1)
    (h2 : 1 < i.operandCount → byteAt 2 = .ok b2) : readInstr byteAt invalid = .ok (i.entry.make b1 b2) := by
  rw [operandCount_eq] at h1 h2
  simp only [readInstr, h0, bind, Except.bind, decodeOpcode_opcode]
  cases he : i.entry <;> simp_all [OpcodeEntry.operands, OpcodeEntry.make]

theorem readInstr_of_first_missing {e : ε} (hn : 0 < i.operandCount) (h1 : byteAt 1 = .error e) :
    readInstr byteAt invalid = .error e := by
  rw [operandCount_eq] at hn
  simp only [readInstr, h0, bind, Except.bind, decodeOpcode_opcode]
  cases he : i.entry <;> simp_all [OpcodeEntry.operands]

theorem readInstr_of_second_missing {b : Byte} {e : ε} (hn : 1 < i.operandCount) (h1 : byteAt 1 = .ok b)
    (h2 : byteAt 2 = .error e) : readInstr byteAt invalid = .error e := by
  rw [operandCount_eq] at hn
  simp only [readInstr, h0, bind, Except.bind, decodeOpcode_opcode]
  cases he : i.entry <;> simp_all [OpcodeEntry.operands]

end

theorem readInstr_of_invalid {op : Byte} (h0 : byteAt 0 = .ok op) (hop : op ∉ validOpcodes) :
    readInstr byteAt invalid = .error (invalid op) := by
  simp [readInstr, h0, bind, Except.bind, decodeOpcode_eq_none_iff.2 hop]

/-- A source that has an instruction's bytes is read as that instruction. -/
theorem readInstr_eq_ok (h : ∀ (k : Nat) (hk : k < (encode i).length), byteAt k = .ok (encode i)[k]) :
    readInstr byteAt invalid = .ok i := by
  obtain ⟨b1, b2, hmake, hops⟩ := exists_make i
  have hget : ∀ k (hk : k < i.operandCount), byteAt (k + 1) = .ok i.operandBytes[k] := fun k hk =>
    h (k + 1) (Nat.succ_lt_succ hk)
  rw [readInstr_of_opcode (b1 := b1) (b2 := b2) (h 0 (Nat.succ_pos _)) (fun h1 => ?_) (fun h2 => ?_), hmake]
  · simp [hget 0 h1, hops]
  · simp [hget 1 h2, hops]

/-! ## The decoder -/

theorem decode_eq_ok_iff {bytes rest : List Byte} :
    decode bytes = .ok (i, rest) ↔ readInstr (listByte bytes) .invalidOpcode = .ok i ∧ rest = bytes.drop i.length := by
  unfold decode
  cases readInstr (listByte bytes) .invalidOpcode with
  | error e => simp [bind, Except.bind]
  | ok j =>
    simp only [bind, Except.bind, Except.ok.injEq, Prod.mk.injEq]
    exact and_congr_right fun h => by rw [h, eq_comm]

theorem listByte_eq_ok {bytes : List Byte} {k : Nat} {b : Byte} : listByte bytes k = .ok b ↔ bytes[k]? = some b := by
  unfold listByte
  cases bytes[k]? <;> simp

/-- Settles O5: the bytes of the encoding are found at their places, and the rest is what the drop leaves. -/
theorem decodeOfEncodeIsTheInstruction : Obligations.DecodeOfEncodeIsTheInstruction := by
  intro i rest
  refine decode_eq_ok_iff.2 ⟨readInstr_eq_ok fun k hk => listByte_eq_ok.2 ?_, ?_⟩
  · rw [List.getElem?_append_left hk, List.getElem?_eq_getElem hk]
  · exact (List.drop_left' rfl).symm

/-- The bytes an instruction is decoded from are its encoding's, one by one. -/
theorem decode_bytes {bytes rest : List Byte} (h : decode bytes = .ok (i, rest)) (k : Nat)
    (hk : k < (encode i).length) : bytes[k]? = some (encode i)[k] :=
  listByte_eq_ok.1 (readInstr_ok (decode_eq_ok_iff.1 h).1 k hk)

/-- Settles O6: the bytes decoded agree with the encoding one by one, so they begin with it, and what is left after its
length is the rest. -/
theorem decodedBytesAreTheEncoding : Obligations.DecodedBytesAreTheEncoding := by
  intro bytes i rest h
  have hprefix : encode i <+: bytes := List.prefix_iff_getElem?.2 fun k hk => decode_bytes h k hk
  calc bytes = encode i ++ bytes.drop (encode i).length := (List.prefix_iff_eq_append.1 hprefix).symm
    _ = encode i ++ rest := by rw [(decode_eq_ok_iff.1 h).2]; rfl

/-- Settles O7: six closed evaluations of the decoder. -/
theorem someWordsDecodeAsTheMapSays : Obligations.SomeWordsDecodeAsTheMapSays := by
  unfold Obligations.SomeWordsDecodeAsTheMapSays
  decide

/-- Settles O8: a byte outside the list has no entry, and a listed byte has one, which makes an instruction of two
more bytes. -/
theorem onlyTheListedBytesAreOpcodes : Obligations.OnlyTheListedBytesAreOpcodes := by
  refine ⟨opcodes_perm.nodup_iff.1 opcodeTable_nodup, rfl, fun op rest hop => ?_, fun op b1 b2 rest hop => ?_⟩
  · have hread : readInstr (listByte (op :: rest)) .invalidOpcode = .error (.invalidOpcode op) :=
      readInstr_of_invalid rfl hop
    rw [decode, hread]
    rfl
  · obtain ⟨e, he⟩ := Option.ne_none_iff_exists'.1 (mt decodeOpcode_eq_none_iff.1 (not_not_intro hop))
    refine ⟨e.make b1 b2, _, decode_eq_ok_iff.2 ⟨readInstr_eq_ok fun k hk => listByte_eq_ok.2 ?_, rfl⟩⟩
    have henc : encode (e.make b1 b2) <+: op :: b1 :: b2 :: rest := by
      rw [encode_make he]
      exact List.cons_prefix_cons.2 ⟨rfl, (List.take_prefix _ _).trans (List.prefix_append [b1, b2] rest)⟩
    exact List.prefix_iff_getElem?.1 henc k hk

/-- Settles O9: an instruction's mnemonic is that of its opcode's entry. -/
theorem oneMnemonicPerOpcodeByte : Obligations.OneMnemonicPerOpcodeByte := by
  refine ⟨fun i j h => ?_, rfl, rfl⟩
  rw [mnemonic_eq i, mnemonic_eq j, entry_eq_of_opcode_eq h]

end Sys2Proof
end

section
/-! PROOFS. The fetch and the step (spec/43_executor.md rules R140 to R142, R147, spec/60_exceptions.md rule R161). The
one idea: the fetch is `readInstr` on the cells from PC, so what the step does is known as soon as it is known which
bytes of an instruction those cells hold, and which of them do not exist. -/

namespace Sys2Proof.Machine

open Sys2Proof.Claims

variable {s : State} {i : Instr}

/-! ## Memory reads -/

theorem memRead_of_lt {m : Memory} {addr : Nat} (h : addr < 256) : memRead m addr = .ok (m.read addr) :=
  if_pos h

theorem memRead_of_ge {m : Memory} {addr : Nat} (h : 256 ≤ addr) : memRead m addr = .error (.addressOutOfRange addr) :=
  if_neg (Nat.not_lt.2 h)

/-- The opcode is the cell at PC, if PC is an address. -/
theorem memRead_pc (h : s.pc.toNat < 256) : memRead s.mem (s.pc.toNat + 0) = .ok (s.mem.read s.pc.toNat) :=
  memRead_of_lt h

/-! ## The fetch -/

/-- An instruction that lies whole in memory at PC is the one fetched. -/
theorem fetchInstr_eq_ok
    (h : ∀ (k : Nat) (hk : k < (encode i).length), memRead s.mem (s.pc.toNat + k) = .ok (encode i)[k]) :
    fetchInstr s = .ok i :=
  readInstr_eq_ok h

theorem fetchInstr_of_invalid (hpc : s.pc.toNat < 256) (h : s.mem.read s.pc.toNat ∉ validOpcodes) :
    fetchInstr s = .error (.invalidOpcode (s.mem.read s.pc.toNat)) :=
  readInstr_of_invalid (memRead_pc hpc) h

/-- A fetch past the last cell finds no opcode. -/
theorem fetchInstr_above (hpc : 256 ≤ s.pc.toNat) : fetchInstr s = .error (.addressOutOfRange s.pc.toNat) := by
  have h0 : memRead s.mem (s.pc.toNat + 0) = .error (.addressOutOfRange s.pc.toNat) := memRead_of_ge hpc
  simp only [fetchInstr, readInstr, h0, bind, Except.bind]

/-- The first operand byte that is missing is the one at 256. -/
theorem fetchInstr_straddling (hpc : s.pc.toNat < 256) (hop : s.mem.read s.pc.toNat = i.opcode)
    (hn : s.pc.toNat + i.operandCount > 255) : fetchInstr s = .error (.addressOutOfRange 256) := by
  have h0 : memRead s.mem (s.pc.toNat + 0) = .ok i.opcode := hop ▸ memRead_pc hpc
  have hcount : i.operandCount ≤ 2 := by
    obtain ⟨b1, b2, _, hops⟩ := exists_make i
    rw [Instr.operandCount, hops]
    exact List.length_take_le' _ _
  obtain h255 | h254 : s.pc.toNat = 255 ∨ s.pc.toNat = 254 := by omega
  · have h1 : memRead s.mem (s.pc.toNat + 1) = .error (.addressOutOfRange 256) := by
      rw [h255]; exact memRead_of_ge le_rfl
    exact readInstr_of_first_missing h0 (by omega) h1
  · have h1 : memRead s.mem (s.pc.toNat + 1) = .ok (s.mem.read (s.pc.toNat + 1)) := memRead_of_lt (by omega)
    have h2 : memRead s.mem (s.pc.toNat + 2) = .error (.addressOutOfRange 256) := by
      rw [h254]; exact memRead_of_ge le_rfl
    exact readInstr_of_second_missing h0 (by omega) h1 h2

/-- The bytes at PC are the cells that exist. -/
theorem memRead_of_bytesAtPc {k : Nat} {b : Byte} (h : (bytesAtPc s)[k]? = some b) :
    memRead s.mem (s.pc.toNat + k) = .ok b := by
  simp only [bytesAtPc, List.getElem?_map, Option.map_eq_some_iff, List.getElem?_eq_some_iff, List.length_range,
    List.getElem_range] at h
  obtain ⟨_, ⟨hk, rfl⟩, rfl⟩ := h
  exact memRead_of_lt (by omega)

/-- The fetch reads what the decoder reads from the bytes at PC. -/
theorem fetchInstr_of_decode {rest : List Byte} (h : decode (bytesAtPc s) = .ok (i, rest)) : fetchInstr s = .ok i :=
  fetchInstr_eq_ok fun k hk => memRead_of_bytesAtPc (decode_bytes h k hk)

/-- Bytes placed at PC that decode to an instruction are fetched as that instruction. -/
theorem fetchInstr_of_placed {bytes rest : List Byte} (hwf : s.mem.wf = true) (hpc : s.pc.toNat + bytes.length ≤ 256)
    (h : decode bytes = .ok (i, rest)) :
    fetchInstr { s with mem := placeBytes bytes s.pc.toNat s.mem } = .ok i := by
  refine fetchInstr_eq_ok fun k hk => ?_
  obtain ⟨hlen, hbyte⟩ := List.getElem?_eq_some_iff.1 (decode_bytes h k hk)
  have haddr : s.pc.toNat + k < 256 := by omega
  rw [← hbyte, ← placeBytes_read_inside bytes s.pc.toNat s.mem hwf k hlen haddr]
  exact memRead_of_lt haddr

/-! ## The step -/

/-- Settles O10: the fetch reads the instruction that the bytes at PC decode to. -/
theorem stepRunsTheDecodedInstruction : Obligations.StepRunsTheDecodedInstruction := fun _ _ _ hrun h =>
  step_of_fetch_ok hrun (fetchInstr_of_decode h)

/-- Settles O11: the three bytes of the word lie in memory, and the fetch decodes them. -/
theorem placedInstructionRunsNext : Obligations.PlacedInstructionRunsNext := by
  intro s nbits w i hrun hwf hpc h
  unfold decodeTableWord at h
  split at h
  · next j rest hdec =>
    cases h
    exact step_of_fetch_ok hrun (fetchInstr_of_placed hwf hpc hdec)
  · cases h

/-- Settles O12: at 256 the opcode's cell does not exist, below it does. -/
theorem opcodeFetchAboveMemoryIsFatal : Obligations.OpcodeFetchAboveMemoryIsFatal := by
  refine ⟨fun s hrun hpc => ?_, fun s hpc => memRead_of_lt hpc⟩
  have hfetch : fetchInstr s = .error (.addressOutOfRange 256) := by
    have habove := fetchInstr_above (s := s) (by simp [hpc])
    rwa [hpc] at habove
  exact step_of_fetch_error hrun hfetch

/-- Settles O13: the fetch of an invalid byte ends before any operand byte is read. -/
theorem invalidOpcodeIsFatal : Obligations.InvalidOpcodeIsFatal := fun _ hrun hpc h =>
  step_of_fetch_error hrun (fetchInstr_of_invalid hpc h)

/-- Settles O14: the fetch ends at the missing operand byte, before the instruction's meaning checks anything. -/
theorem operandFetchAboveMemoryIsFatal : Obligations.OperandFetchAboveMemoryIsFatal := fun _ _ hrun hpc hop hn =>
  step_of_fetch_error hrun (fetchInstr_straddling hpc hop hn)

theorem step_of_halted (h : s.run = .halted) : step s = .fault .halted := by
  simp [step, h]

/-- Settles O20: the step is the fault `halted`, and a run ends where there is no step. -/
theorem haltedTakesNoStep : Obligations.HaltedTakesNoStep := by
  refine fun s h => ⟨step_of_halted h, fun k => ?_⟩
  cases k with
  | zero => rfl
  | succ k => simp [runSteps, step_of_halted h]

/-- Settles O18: a step that leaves a cause has taken a fatal error, since HLT leaves none and every other
instruction leaves the one there was. -/
theorem fatalErrorChangesOnlyRunAndCause : Obligations.FatalErrorChangesOnlyRunAndCause := by
  intro s t herr hstep hcause
  obtain ⟨e, rfl⟩ | ⟨_, _, rfl⟩ | ⟨_, _, hse⟩ := step_next_run hstep
  · rfl
  · exact absurd rfl hcause
  · exact absurd (hse.trans herr) hcause

/-! ## One-byte instructions at PC: NOPs to the top, and a store seen by the next fetch -/

/-- An instruction without operands is fetched by its opcode alone. -/
theorem fetchInstr_of_opcode (hi : i.operandCount = 0) (hpc : s.pc.toNat < 256)
    (hop : s.mem.read s.pc.toNat = i.opcode) : fetchInstr s = .ok i := by
  refine fetchInstr_eq_ok fun k hk => ?_
  have hlen : (encode i).length = 1 := congrArg (· + 1) hi
  obtain rfl : k = 0 := by omega
  exact (memRead_pc hpc).trans (congrArg Except.ok hop)

/-- One NOP further: PC is one higher and nothing else has changed. -/
theorem step_nop (hrun : s.run = .running) (hpc : s.pc.toNat < 256) (hop : s.mem.read s.pc.toNat = 0x00) :
    step s = .next { s with pc := s.pc + 1 } :=
  step_of_fetch_ok hrun (fetchInstr_of_opcode (i := .nop) rfl hpc hop)

/-- Settles O23: by induction on the number of cells from PC to the top; each zero cell is a NOP. -/
theorem runningThroughZerosEndsAtTheTop : Obligations.RunningThroughZerosEndsAtTheTop := by
  intro s hrun hpc hzero
  obtain ⟨n, hn⟩ : ∃ n, n + s.pc.toNat = 256 := ⟨256 - s.pc.toNat, by omega⟩
  rw [show 257 - s.pc.toNat = n + 1 by omega]
  induction n generalizing s with
  | zero =>
    have htop : s.pc = 256 := BitVec.eq_of_toNat_eq (by simpa using hn)
    rw [runSteps_succ 0 (opcodeFetchAboveMemoryIsFatal.1 s hrun htop), ← htop]
    rfl
  | succ n ih =>
    have hnext : (s.pc + 1).toNat = s.pc.toNat + 1 := by bv_omega
    rw [runSteps_succ _ (step_nop hrun (by omega) (hzero _ le_rfl (by omega)))]
    exact ih _ hrun (by simp only [hnext]; omega) (fun a ha => hzero a (by simp only [hnext] at ha; omega))
      (by simp only [hnext]; omega)

/-- Settles O22: the ST stores the byte at the next PC, and the next fetch reads it there. -/
theorem storeIsSeenByTheNextFetch : Obligations.StoreIsSeenByTheNextFetch := by
  intro s a b rest hrun hwf hdec haddr
  obtain ⟨_, t, hx, ht, hstored, _⟩ := stStoresAtTheAddress a b s
  have hlt := s.regs[a].isLt
  have hpc : t.pc.toNat = s.regs[a].toNat := by
    have htpc : t.pc = s.pc + 3 := congrArg State.pc ht
    rw [htpc, haddr]
    bv_omega
  have hbyte : t.mem.read t.pc.toNat = s.regs[b] := hpc ▸ hstored hwf
  have htrun : t.run = .running := (congrArg State.run ht).trans hrun
  refine ⟨t, (stepRunsTheDecodedInstruction s _ rest hrun hdec).trans hx, fun hhlt => ?_, fun hbad => ?_⟩
  · rw [step_of_fetch_ok htrun (fetchInstr_of_opcode (i := .hlt) rfl (by omega) (hbyte.trans hhlt)),
      (nopAdvancesAndHltStops.2.2 t).2, ht, BitVec.add_assoc]
    rfl
  · rw [← hbyte] at hbad ⊢
    exact invalidOpcodeIsFatal t htrun (by omega) hbad

end Sys2Proof.Machine
end

section
/-! PROOFS. Memory and the loader (spec/20_memory.md rule R30, spec/70_reset_and_hazards.md rule R194). The one idea of
the canonical form: the first listed cell is the lowest that is not empty, so equal contents have equal first cells. -/

namespace Sys2Proof.Machine

/-! ## Memory reads and writes (rule R30) -/

/-- Settles O25: inside the address space `MemRead` and `MemWrite` are the read and the write of the list. -/
theorem memoryReadsBackWhatWasWritten : Obligations.MemoryReadsBackWhatWasWritten := by
  intro m addr v hwf haddr
  refine ⟨memRead_of_lt haddr, m.write addr v, if_pos haddr, Memory.wf_write m addr v hwf haddr, ?_, fun b hb => ?_⟩
  · rw [memRead_of_lt haddr, Memory.read_write_same m addr v hwf]
  · simp only [memRead, Memory.read_write_other m addr v b hb]

/-! ## The canonical form -/

/-- The first cell of a canonical memory exists and is not empty. -/
theorem Memory.wf_head {a : Nat} {v : Byte} {m : Memory} (h : Memory.wf ((a, v) :: m) = true) :
    a < 256 ∧ v ≠ Config.emptyByte := by
  simp only [Memory.wf, List.all_cons, Bool.and_eq_true, decide_eq_true_eq] at h
  exact h.2.1

/-- A canonical memory reads as empty where there is no cell. -/
theorem Memory.read_above {m : Memory} (h : m.wf = true) {addr : Nat} (ha : 256 ≤ addr) :
    m.read addr = Config.emptyByte := by
  induction m with
  | nil => rfl
  | cons c m ih =>
    obtain ⟨a, v⟩ := c
    have hhead := (Memory.wf_head h).1
    rw [Memory.read, if_neg (by omega)]
    exact ih (Memory.wf_tail h)

/-- Of two canonical memories that hold the same, neither has its first cell below the other's: there the other reads
as empty. -/
theorem Memory.head_not_lt {a b : Nat} {v w : Byte} {m m' : Memory} (h : Memory.wf ((a, v) :: m) = true)
    (h' : Memory.wf ((b, w) :: m') = true)
    (heq : ∀ addr, Memory.read ((a, v) :: m) addr = Memory.read ((b, w) :: m') addr) : ¬ a < b := by
  intro hlt
  have hempty : Memory.read ((b, w) :: m') a = Config.emptyByte := Memory.read_below fun c hc => by
    obtain rfl | hc := List.mem_cons.1 hc
    · exact hlt
    · exact hlt.trans (Memory.wf_head_lt h' c hc)
  apply (Memory.wf_head h).2
  rw [← hempty, ← heq a, Memory.read, if_pos rfl]

/-- A canonical memory that lists a cell does not read as empty everywhere. -/
theorem Memory.not_read_empty_of_cons {a : Nat} {v : Byte} {m : Memory} (h : Memory.wf ((a, v) :: m) = true) :
    ¬ ∀ addr, Memory.read ((a, v) :: m) addr = Config.emptyByte := fun hread =>
  (Memory.wf_head h).2 (by rw [← hread a, Memory.read, if_pos rfl])

/-- Canonical memories are determined by what they hold. -/
theorem Memory.ext_read {m m' : Memory} (h : m.wf = true) (h' : m'.wf = true)
    (heq : ∀ addr, m.read addr = m'.read addr) : m = m' := by
  induction m generalizing m' with
  | nil =>
    cases m' with
    | nil => rfl
    | cons c m' => exact absurd (fun addr => (heq addr).symm) (Memory.not_read_empty_of_cons h')
  | cons c m ih =>
    cases m' with
    | nil => exact absurd heq (Memory.not_read_empty_of_cons h)
    | cons c' m' =>
      obtain ⟨a, v⟩ := c
      obtain ⟨b, w⟩ := c'
      have hab := Memory.head_not_lt h h' heq
      have hba := Memory.head_not_lt h' h fun addr => (heq addr).symm
      obtain rfl : a = b := by omega
      have hvw : v = w := by simpa [Memory.read] using heq a
      have htail : ∀ addr, Memory.read m addr = Memory.read m' addr := by
        intro addr
        by_cases haddr : addr = a
        · rw [haddr, Memory.read_below (Memory.wf_head_lt h), Memory.read_below (Memory.wf_head_lt h')]
        · simpa [Memory.read, haddr] using heq addr
      rw [hvw, ih (Memory.wf_tail h) (Memory.wf_tail h') htail]

/-- Settles O26: where there is no cell both read as empty. -/
theorem canonicalMemoriesWithEqualCellsAreEqual : Obligations.CanonicalMemoriesWithEqualCellsAreEqual := by
  refine fun m m' h h' heq => Memory.ext_read h h' fun addr => ?_
  by_cases ha : addr < 256
  · exact heq addr ha
  · rw [Memory.read_above h (Nat.le_of_not_lt ha), Memory.read_above h' (Nat.le_of_not_lt ha)]

/-! ## The loader (rule R194) -/

/-- Settles O24: bytes placed from address 0 are read back inside and change nothing outside. -/
theorem loaderPlacesTheProgram : Obligations.LoaderPlacesTheProgram := by
  refine fun bytes => ⟨fun hlen => ⟨_, if_pos hlen, rfl, fun k hk => ?_, fun a ha => ?_⟩,
    fun hlen => if_neg (Nat.not_le.2 hlen)⟩
  · have hplaced := placeBytes_read_inside bytes Config.loadBase State.reset.mem reset_mem_wf k hk
      (by simp only [Config.loadBase, Config.memSize]; omega)
    rwa [Config.loadBase, Nat.zero_add] at hplaced
  · exact placeBytes_read_outside bytes Config.loadBase State.reset.mem a (.inr (by simpa [Config.loadBase] using ha))

end Sys2Proof.Machine
end

section
/-! PROOFS. CALL, and the call and return law (spec/41_control_flow.md rules R102, R114). The one idea: CALL is the push
of the return address with PC set, and RET finds that byte again in any state balanced with the one CALL left. -/

namespace Sys2Proof.Machine

variable {r : Fin 8} {s t : State} {e : FatalError}

theorem execCall_of_no_return (h : s.pc.toNat + 2 > 255) :
    exec (.call (regByte r)) s = .next (raise (.addressOutOfRange (s.pc.toNat + 2)) s) := by
  simp only [exec, execCall, oneReg_regByte, if_pos h, commit_error]

theorem execCall_of_push_error (h : s.pc.toNat + 2 ≤ 255) (hpush : push (wrap8 (s.pc.toNat + 2 : Nat)) s = .error e) :
    exec (.call (regByte r)) s = .next (raise e s) := by
  simp only [exec, execCall, oneReg_regByte, if_neg (Nat.not_lt.2 h), hpush, bind, Except.bind, commit_error]

theorem execCall_of_push_ok (h : s.pc.toNat + 2 ≤ 255) (hpush : push (wrap8 (s.pc.toNat + 2 : Nat)) s = .ok t) :
    exec (.call (regByte r)) s = .next (setPc (zext9 (readReg s r)) t) := by
  simp only [exec, execCall, oneReg_regByte, if_neg (Nat.not_lt.2 h), hpush, bind, Except.bind, commit_ok]

/-- Settles O43: with a return address, CALL is its push (`PushDecrementsThenStores`) with PC set. -/
theorem callPushesTheReturnAddress : Obligations.CallPushesTheReturnAddress := by
  refine fun r s => ⟨execCall_of_no_return, fun h h0 => execCall_of_push_error h (push_overflow _ h0), fun h h0 => ?_⟩
  obtain ⟨t, ht, hpush, hstored⟩ := (pushDecrementsThenStores (wrap8 (s.pc.toNat + 2 : Nat)) s).2 h0
  refine ⟨_, execCall_of_push_ok h ht, congrArg (setPc _) hpush, ?_⟩
  rwa [wrap8, BitVec.ofInt_natCast] at hstored

/-- Settles O30: RET pops the byte that CALL stored, which is the return address because that is at most 255. -/
theorem returnGoesBackAfterTheCall : Obligations.ReturnGoesBackAfterTheCall := by
  intro s r hwf hle h0 hpc
  obtain ⟨t, hcall, ht, hstored⟩ := (callPushesTheReturnAddress r s).2.2 hpc h0
  have htsp : t.sp = s.sp - 1 := congrArg State.sp ht
  refine ⟨t, hcall, congrArg State.pc ht, htsp, fun v hvwf hvsp hcell => ?_⟩
  have haddr : v.sp.toNat = s.sp.toNat - 1 := by rw [hvsp, htsp, sub_one_toNat h0]
  have hne : v.sp ≠ Config.spInit := by
    intro h
    have hpos : s.sp.toNat ≠ 0 := fun hz => h0 (BitVec.eq_of_toNat_eq hz)
    rw [← h] at hle
    omega
  have hbyte : v.mem.read v.sp.toNat = BitVec.ofNat 8 (s.pc.toNat + 2) := by
    rw [hcell, ← hvsp, haddr]
    exact hstored.1 hwf
  obtain ⟨u, hret, hu, hclear⟩ := (retGoesToThePoppedByte.2 v).2 hne
  refine ⟨u, hret, ?_, ?_, haddr ▸ hclear.1 hvwf⟩
  · rw [hu, hbyte]
    bv_omega
  · rw [hu, hvsp, htsp]
    exact BitVec.sub_add_cancel _ _

end Sys2Proof.Machine
end

section
/-! PROOFS. Division, the comparison and the shifts (spec/40_alu.md rules R73, R74, R77, R82, R83, R85, R86), and the
two output instructions (spec/42_other.md rules R127, R128). The one idea: an instruction's statement is its shape's at
its own operation, and what is left is a fact about bytes: the arithmetic is that of `BitVec`. -/

namespace Sys2Proof.Machine

/-! ## Wrapped results are bit-vector arithmetic (rule R85) -/

/-- The signed reading of a byte, wrapped, is the byte. -/
theorem wrap8_toInt (x : Byte) : wrap8 x.toInt = x :=
  BitVec.ofInt_toInt

theorem aluAdd_eq_add (x y : Byte) : aluAdd x y = x + y := by
  rw [aluAdd, wrap8, BitVec.ofInt_add, BitVec.ofInt_toInt, BitVec.ofInt_toInt]

theorem aluSub_eq_sub (x y : Byte) : aluSub x y = x - y := by
  rw [aluSub, wrap8, Int.sub_eq_add_neg, BitVec.ofInt_add, BitVec.ofInt_neg, BitVec.ofInt_toInt, BitVec.ofInt_toInt,
    BitVec.sub_eq_add_neg]

theorem aluMul_eq_mul (x y : Byte) : aluMul x y = x * y := by
  rw [aluMul, wrap8, BitVec.ofInt_mul, BitVec.ofInt_toInt, BitVec.ofInt_toInt]

theorem aluInc_eq_add_one (x : Byte) : aluInc x = x + 1 :=
  aluAdd_eq_add x 1

theorem aluDec_eq_sub_one (x : Byte) : aluDec x = x - 1 :=
  aluSub_eq_sub x 1

/-- SHL's cut at 8 places makes no difference to the bits: `2 ^ k` is a multiple of 256 from there on. -/
theorem aluShl_eq_ofNat (y : Byte) : aluShl y = BitVec.ofNat 8 (y.toNat * 2 ^ y.toNat) := by
  unfold aluShl
  by_cases hy : y.toNat ≥ 8
  · have hdvd : 2 ^ 8 ∣ y.toNat * 2 ^ y.toNat := (Nat.pow_dvd_pow 2 hy).mul_left _
    rw [if_pos hy]
    exact BitVec.eq_of_toNat_eq (Nat.mod_eq_zero_of_dvd hdvd).symm
  · rw [if_neg hy]
    exact BitVec.ofInt_natCast 8 _

/-- Settles O39: the shapes at the bit-vector operations, which are those of the unsigned reading as well. -/
theorem unsignedReadingGivesTheSameBits : Obligations.UnsignedReadingGivesTheSameBits := by
  intro a b s
  have hadd : aluAdd s.regs[a] s.regs[b] = BitVec.ofNat 8 (s.regs[a].toNat + s.regs[b].toNat) := by
    rw [aluAdd_eq_add]; bv_omega
  have hsub : aluSub s.regs[a] s.regs[b] = BitVec.ofNat 8 (s.regs[a].toNat + 256 - s.regs[b].toNat) := by
    rw [aluSub_eq_sub]; bv_omega
  have hmul : aluMul s.regs[a] s.regs[b] = BitVec.ofNat 8 (s.regs[a].toNat * s.regs[b].toNat) :=
    (aluMul_eq_mul _ _).trans (BitVec.eq_of_toNat_eq (BitVec.toNat_mul _ _))
  have hinc : aluInc s.regs[a] = BitVec.ofNat 8 (s.regs[a].toNat + 1) := by
    rw [aluInc_eq_add_one]; bv_omega
  have hdec : aluDec s.regs[a] = BitVec.ofNat 8 (s.regs[a].toNat + 255) := by
    rw [aluDec_eq_sub_one]; bv_omega
  rw [← hadd, ← hsub, ← hmul, ← hinc, ← hdec, ← aluShl_eq_ofNat]
  exact ⟨aluBinary_total aluAdd a b s, aluBinary_total aluSub a b s, aluBinary_total aluMul a b s,
    aluUnary_total aluInc a s, aluUnary_total aluDec a s, aluBinary_total (fun _ => aluShl) a b s⟩

/-! ## DIV and MOD (rules R73, R74, R86) -/

/-- The remainder of the truncating policy is the truncating remainder. -/
theorem remainder_truncate (m n : Int) : remainder .truncate m n = m.tmod n := by
  rw [remainder, quotient, Int.tmod_def, Int.mul_comm]

theorem aluDiv_of_ne_zero {x y : Byte} (h : y ≠ 0x00) : aluDiv x y = .ok (wrap8 (x.toInt.tdiv y.toInt)) :=
  if_neg h

theorem aluMod_of_ne_zero {x y : Byte} (h : y ≠ 0x00) : aluMod x y = .ok (wrap8 (x.toInt.tmod y.toInt)) := by
  rw [← remainder_truncate]
  exact if_neg h

/-- Settles O34: the binary shape at the two divisions, which fail on a zero divisor alone. -/
theorem divModTruncateOrFailOnZero : Obligations.DivModTruncateOrFailOnZero := fun _ _ _ =>
  ⟨fun h => ⟨aluBinary_ok (aluDiv_of_ne_zero h), aluBinary_ok (aluMod_of_ne_zero h)⟩,
    fun h => ⟨aluBinary_error (if_pos h), aluBinary_error (if_pos h)⟩⟩

/-- The truncating remainder of two bytes does not wrap. -/
theorem toInt_wrap8_tmod (x y : Byte) : (wrap8 (x.toInt.tmod y.toInt)).toInt = x.toInt.tmod y.toInt := by
  rw [← BitVec.toInt_srem, wrap8_toInt]

/-- The truncating quotient of two bytes wraps for -128 / -1 alone. -/
theorem toInt_wrap8_tdiv {x y : Byte} (h : ¬(x = 0x80 ∧ y = 0xFF)) :
    (wrap8 (x.toInt.tdiv y.toInt)).toInt = x.toInt.tdiv y.toInt := by
  rw [← BitVec.toInt_sdiv_of_ne_or_ne x y (not_and_or.1 h), wrap8_toInt]

/-- The law in wrapped arithmetic, in which it has no exception. -/
theorem wrap8_tdiv_mul_add_tmod (x y : Byte) :
    wrap8 (x.toInt.tdiv y.toInt) * y + wrap8 (x.toInt.tmod y.toInt) = x := by
  calc wrap8 (x.toInt.tdiv y.toInt) * y + wrap8 (x.toInt.tmod y.toInt)
      = wrap8 (x.toInt.tdiv y.toInt * y.toInt + x.toInt.tmod y.toInt) := by
        rw [wrap8, wrap8, wrap8, BitVec.ofInt_add, BitVec.ofInt_mul, BitVec.ofInt_toInt]
    _ = x := by rw [Int.tdiv_mul_add_tmod, wrap8_toInt]

theorem natAbs_tmod_lt {m n : Int} (h : n ≠ 0) : (m.tmod n).natAbs < n.natAbs := by
  rw [Int.natAbs_tmod]
  exact Nat.mod_lt _ (Int.natAbs_pos.2 h)

/-- A truncating remainder that is not zero has the dividend's sign. -/
theorem tmod_neg_iff {m n : Int} (h : m.tmod n ≠ 0) : m.tmod n < 0 ↔ m < 0 := by
  have hsign := Int.sign_tmod m n
  rw [if_neg (mt Int.dvd_iff_tmod_eq_zero.1 h)] at hsign
  rw [← Int.sign_eq_neg_one_iff_neg, hsign, Int.sign_eq_neg_one_iff_neg]

/-- Settles O35: the law of the truncating division of integers, whose remainder never wraps and whose quotient
wraps once. -/
theorem quotientAndRemainderFitTogether : Obligations.QuotientAndRemainderFitTogether := by
  intro a b s h
  obtain ⟨hdiv, hmod⟩ := (divModTruncateOrFailOnZero a b s).1 h
  refine ⟨_, _, hdiv, hmod, ?_⟩
  simp only [Fin.getElem_fin, Vector.getElem_set_self, toInt_wrap8_tmod]
  refine ⟨wrap8_tdiv_mul_add_tmod _ _, natAbs_tmod_lt fun h0 => h (BitVec.eq_of_toInt_eq h0), tmod_neg_iff,
    fun hne => ?_, fun ⟨ha, hb⟩ => ?_⟩
  · rw [toInt_wrap8_tdiv hne, Int.tdiv_mul_add_tmod]
  · rw [ha, hb]
    decide

/-! ## CMP (rule R77) -/

theorem flagL_packFlags : ∀ l g e : Bool, flagL (packFlags l g e) = l := by decide

theorem flagG_packFlags : ∀ l g e : Bool, flagG (packFlags l g e) = g := by decide

theorem flagE_packFlags : ∀ l g e : Bool, flagE (packFlags l g e) = e := by decide

/-- Settles O36: equal signed readings are equal bytes, and "less" and "greater" are the signed order. -/
theorem compareWritesTheSignedComparison : Obligations.CompareWritesTheSignedComparison := by
  intro a b s
  have hflags : compareFlags s.regs[a] s.regs[b] =
      packFlags (s.regs[a].slt s.regs[b]) (s.regs[b].slt s.regs[a]) (s.regs[a] == s.regs[b]) := by
    simp [compareFlags, BitVec.slt, BitVec.toInt_inj, beq_eq_decide]
  rw [execCmp_regByte]
  exact congrArg (fun f => Host.Outcome.next (advance 2 (setFl f s))) hflags

/-- The flags of a comparison the other way round. -/
theorem compareFlags_swap (x y : Byte) :
    flagG (compareFlags y x) = flagL (compareFlags x y) ∧ flagL (compareFlags y x) = flagG (compareFlags x y) ∧
      flagE (compareFlags y x) = flagE (compareFlags x y) := by
  simp only [compareFlags, flagL_packFlags, flagG_packFlags, flagE_packFlags, gt_iff_lt, eq_comm, and_self]

/-- Settles O37: the first CMP leaves the registers, so the second compares the same contents. -/
theorem compareIsSymmetric : Obligations.CompareIsSymmetric := fun a b s =>
  ⟨_, _, execCmp_regByte a b s, execCmp_regByte b a _, compareFlags_swap (readReg s a) (readReg s b)⟩

/-! ## SHL and SHR (rules R82, R83) -/

/-- SHL by the table of rule R82: 0 from 8 places on. -/
theorem aluShl_eq_table (y : Byte) :
    aluShl y = ([0x00, 0x02, 0x08, 0x18, 0x40, 0xA0, 0x80, 0x80] : List Byte)[y.toNat]?.getD 0x00 := by
  by_cases hy : y.toNat < 8
  · obtain ⟨r, rfl⟩ := exists_regByte hy
    revert r
    decide
  · rw [List.getElem?_eq_none (by simpa using hy)]
    exact if_pos (Nat.le_of_not_lt hy)

/-- SHR of a byte by itself leaves its sign alone: `2 ^ k` is above the value `k`, and above 128 if bit 7 is set. -/
theorem aluShr_eq_sign (y : Byte) : aluShr y = if y.getLsbD 7 then 0xFF else 0x00 := by
  have hpow : y.toNat < 2 ^ y.toNat := Nat.lt_two_pow_self
  have hbit : y.getLsbD 7 = decide (128 ≤ y.toNat) := BitVec.getLsbD_last y
  have hdiv : aluShr y = wrap8 (y.toInt / ((2 ^ y.toNat : Nat) : Int)) :=
    congrArg wrap8 (Int.fdiv_eq_ediv_of_nonneg _ (Int.natCast_nonneg _))
  rw [hdiv, hbit, BitVec.toInt_eq_toNat_cond]
  have hlt := y.isLt
  by_cases hneg : 128 ≤ y.toNat
  · rw [if_neg (by omega), if_pos (by simpa using hneg), Int.ediv_eq_neg_one_of_neg_of_le (by omega) (by omega)]
    rfl
  · rw [if_pos (by omega), if_neg (by simpa using hneg), Int.ediv_eq_zero_of_lt (by omega) (by omega)]
    rfl

/-- Settles O38: the binary shape at the two shifts, whose values are the tables'. -/
theorem shiftsFollowTheirTables : Obligations.ShiftsFollowTheirTables := by
  intro a b s
  rw [← aluShl_eq_table, ← aluShr_eq_sign]
  exact ⟨aluBinary_total (fun _ => aluShl) a b s, aluBinary_total (fun _ => aluShr) a b s⟩

/-! ## PRN and PRA (rules R127, R128) -/

/-- Settles O51: the register byte is checked, and the event is the reading of the register's content. -/
theorem prnAndPraEmitOneEvent : Obligations.PrnAndPraEmitOneEvent := fun r s =>
  ⟨oneReg_regByte r s _, oneReg_regByte r s _⟩

end Sys2Proof.Machine
end

section
/-! PROOFS. Executing an instruction, all cases at once (spec/43_executor.md rules R143 to R146). The one idea: `exec`
has three outcomes. A bad register byte raises its error whatever the state is; a well-formed instruction either raises
its own error, or completes, and its next state is then `completed`: what it writes to a register, SP, FL and memory,
with PC, the stored address and the events as the tables of the statements have them. The frames of the next section
are facts about these tables. -/

namespace Sys2Proof.Machine

open Sys2Proof.Claims

variable {s t : State} {i : Instr}

/-! ## The tables of what a completed instruction writes -/

/-- The register a legal register byte names. -/
def regOf (b : Byte) : Fin 8 := Fin.ofNat 8 b.toNat

@[simp] theorem regOf_regByte (r : Fin 8) : regOf (regByte r) = r := by
  simp [regOf]

/-- The content of the register a legal register byte names. -/
def regVal (s : State) (b : Byte) : Byte := readReg s (regOf b)

@[simp] theorem regVal_regByte (s : State) (r : Fin 8) : regVal s (regByte r) = readReg s r := by
  rw [regVal, regOf_regByte]

/-- The register a completed instruction writes, and the value. -/
def regWrite (i : Instr) (s : State) : Option (Fin 8 × Byte) :=
  match i with
  | .ldi r imm => some (regOf r, imm)
  | .ld a b => some (regOf a, s.mem.read (regVal s b).toNat)
  | .pop r => some (regOf r, s.mem.read s.sp.toNat)
  | .add a b => some (regOf a, aluAdd (regVal s a) (regVal s b))
  | .sub a b => some (regOf a, aluSub (regVal s a) (regVal s b))
  | .mul a b => some (regOf a, aluMul (regVal s a) (regVal s b))
  | .div a b => some (regOf a, wrap8 ((regVal s a).toInt.tdiv (regVal s b).toInt))
  | .mod a b => some (regOf a, wrap8 ((regVal s a).toInt.tmod (regVal s b).toInt))
  | .inc a => some (regOf a, aluInc (regVal s a))
  | .dec a => some (regOf a, aluDec (regVal s a))
  | .and a b => some (regOf a, regVal s a &&& regVal s b)
  | .or a b => some (regOf a, regVal s a ||| regVal s b)
  | .xor a b => some (regOf a, regVal s a ^^^ regVal s b)
  | .not a => some (regOf a, ~~~regVal s a)
  | .shl a b => some (regOf a, aluShl (regVal s b))
  | .shr a b => some (regOf a, aluShr (regVal s b))
  | _ => none

/-- The byte a completed instruction stores, if it stores one. -/
def storedByte (i : Instr) (s : State) : Byte :=
  match i with
  | .st _ b => regVal s b
  | .push r => regVal s r
  | .call _ => wrap8 (s.pc.toNat + 2 : Nat)
  | _ => 0x00

/-- SP after a completed instruction. -/
def spAfter (i : Instr) (sp : Byte) : Byte :=
  match i with
  | .push _ => sp - 1
  | .call _ => sp - 1
  | .pop _ => sp + 1
  | .ret => sp + 1
  | _ => sp

/-- FL after a completed instruction. -/
def flAfter (i : Instr) (s : State) : BitVec 3 :=
  match i with
  | .cmp a b => compareFlags (regVal s a) (regVal s b)
  | _ => s.fl

/-- The next state of a well-formed instruction without an error of its own. -/
def completed (i : Instr) (s : State) : State where
  regs := (regWrite i s).elim s.regs fun w => s.regs.set w.1 w.2
  pc := (jumpTarget i s).getD (s.pc + BitVec.ofNat 9 (i.operandCount + 1))
  sp := spAfter i s.sp
  fl := flAfter i s
  run := if i = .hlt then .halted else s.run
  err := if i = .hlt then none else s.err
  mem := (storeAddr i s).elim s.mem fun a => s.mem.write a (storedByte i s)
  out := s.out ++ events i s

/-! ## Bad register bytes (rule R143) -/

/-- Every instruction is the operand check of its register bytes and a rest. -/
theorem exec_shape (i : Instr) :
    i.regOperands = [] ∨
      (∃ (r : Byte) (k : State → Fin 8 → Except FatalError State),
        i.regOperands = [r] ∧ ∀ s, exec i s = oneReg r s (k s)) ∨
      ∃ (a b : Byte) (k : State → Fin 8 → Fin 8 → Except FatalError State),
        i.regOperands = [a, b] ∧ ∀ s, exec i s = twoRegs a b s (k s) := by
  cases i with
  | nop | hlt | ret => exact .inl rfl
  | ldi r _ | push r | pop r | prn r | pra r | call r | jmp r | jeq r | jne r | jgt r | jlt r | jle r | jge r
  | inc r | dec r | not r => exact .inr (.inl ⟨r, _, rfl, fun _ => rfl⟩)
  | ld a b | st a b | add a b | sub a b | mul a b | div a b | mod a b | cmp a b | and a b | or a b | xor a b
  | shl a b | shr a b => exact .inr (.inr ⟨a, b, _, rfl, fun _ => rfl⟩)

/-- Settles O15: the operand check of an instruction's shape takes the register bytes in order. -/
theorem badRegisterIndexIsTakenFirst : Obligations.BadRegisterIndexIsTakenFirst := by
  intro i s before after r hops hbefore hr
  obtain h | ⟨q, k, h, hx⟩ | ⟨a, b, k, h, hx⟩ := exec_shape i
  · simp [h] at hops
  · rw [h, List.singleton_eq_append_iff] at hops
    obtain ⟨rfl, hq⟩ | ⟨_, hq⟩ := hops
    · cases hq
      exact (hx s).trans (oneReg_error hr s _)
    · cases hq
  · match before, h.symm.trans hops with
    | [], hops =>
      cases hops
      exact (hx s).trans (twoRegs_error_first hr b s _)
    | [q], hops =>
      cases hops
      obtain ⟨j, rfl⟩ := exists_regByte (hbefore a (by simp))
      exact (hx s).trans (twoRegs_error_second j hr s _)
    | q :: p :: rest, hops => simp at hops

/-- The register bytes of a well-formed instruction name registers. -/
theorem exists_regByte_of_wellFormed (h : i.wellFormed = true) {b : Byte} (hb : b ∈ i.regOperands) :
    ∃ r : Fin 8, b = regByte r :=
  exists_regByte (of_decide_eq_true (List.all_eq_true.1 h b hb))

/-- An ill-formed instruction raises one error in every state. -/
theorem exec_of_not_wellFormed (h : i.wellFormed = false) : ∃ e, ∀ s, exec i s = .next (raise e s) := by
  obtain hops | ⟨r, k, hops, hx⟩ | ⟨a, b, k, hops, hx⟩ := exec_shape i
  · simp [Instr.wellFormed, hops] at h
  · have hr : 8 ≤ r.toNat := by
      simp only [Instr.wellFormed, hops, List.all_cons, List.all_nil, Bool.and_true, decide_eq_false_iff_not] at h
      exact Nat.le_of_not_lt h
    exact ⟨_, fun s => (hx s).trans (oneReg_error hr s _)⟩
  · obtain ⟨p, q, rfl, rfl⟩ | ⟨_, e, he⟩ := twoRegs_cases a b
    · simp [Instr.wellFormed, hops, Config.numRegs] at h
    · exact ⟨e, fun s => (hx s).trans (he s _)⟩

/-- A well-formed instruction without an error of its own completes. Its next state is known from its shape or its
stack primitive, and has the fields of the tables. -/
theorem exec_completed (hwf : i.wellFormed = true) (hown : ownError i s = none) :
    exec i s = .next (completed i s) := by
  suffices hnext : ∃ t, exec i s = .next t ∧ t = completed i s by
    obtain ⟨t, ht, rfl⟩ := hnext
    exact ht
  have hreg := fun b => exists_regByte_of_wellFormed (b := b) hwf
  cases i
  case' nop | hlt => refine ⟨_, rfl, ?_⟩
  case' ret =>
    have h0 : s.sp ≠ Config.spInit := by simpa [ownError] using hown
    refine ⟨_, execRet_of_pop_ok (pop_ok h0), ?_⟩
  case' ldi r _ | push r | pop r | prn r | pra r | call r | jmp r | jeq r | jne r | jgt r | jlt r | jle r | jge r
    | inc r | dec r | not r =>
    obtain ⟨r, rfl⟩ := hreg r (by simp [Instr.regOperands])
  case' ld a b | st a b | add a b | sub a b | mul a b | div a b | mod a b | cmp a b | and a b | or a b | xor a b
    | shl a b | shr a b =>
    obtain ⟨a, rfl⟩ := hreg a (by simp [Instr.regOperands])
    obtain ⟨b, rfl⟩ := hreg b (by simp [Instr.regOperands])
  case' ldi | jmp | prn | pra => refine ⟨_, oneReg_regByte r s _, ?_⟩
  case' inc | dec | not => refine ⟨_, aluUnary_regByte _ r s, ?_⟩
  case' jeq | jne | jgt | jlt | jle | jge =>
    obtain ⟨⟨_, hjeq⟩, ⟨_, hjne⟩, ⟨_, hjgt⟩, ⟨_, hjlt⟩, ⟨_, hjle⟩, _, hjge⟩ := conditionalJumpsTestTheirFlags r s
  case' jeq => refine ⟨_, hjeq, ?_⟩
  case' jne => refine ⟨_, hjne, ?_⟩
  case' jgt => refine ⟨_, hjgt, ?_⟩
  case' jlt => refine ⟨_, hjlt, ?_⟩
  case' jle => refine ⟨_, hjle, ?_⟩
  case' jge => refine ⟨_, hjge, ?_⟩
  case' add | sub | mul | and | or | xor | shl | shr => refine ⟨_, twoRegs_regByte a b s _, ?_⟩
  case' ld => refine ⟨_, execLd_regByte a b s, ?_⟩
  case' st => refine ⟨_, execSt_regByte a b s, ?_⟩
  case' cmp => refine ⟨_, execCmp_regByte a b s, ?_⟩
  case' push =>
    have h0 : s.sp ≠ 0x00 := by simpa [ownError] using hown
    refine ⟨_, execPush_of_push_ok (push_ok _ h0), ?_⟩
  case' pop =>
    have h0 : s.sp ≠ Config.spInit := by simpa [ownError] using hown
    refine ⟨_, execPop_of_pop_ok (pop_ok h0), ?_⟩
  case' call =>
    obtain ⟨hpc, h0⟩ : s.pc.toNat + 2 ≤ 255 ∧ s.sp ≠ 0x00 := by simpa [ownError, ite_eq_iff] using hown
    refine ⟨_, execCall_of_push_ok hpc (push_ok _ h0), ?_⟩
  case' div =>
    have h0 : s.regs[b] ≠ 0x00 := by simpa [ownError, Except.toOption] using hown
    refine ⟨_, aluBinary_ok (aluDiv_of_ne_zero h0), ?_⟩
  case' mod =>
    have h0 : s.regs[b] ≠ 0x00 := by simpa [ownError, Except.toOption] using hown
    refine ⟨_, aluBinary_ok (aluMod_of_ne_zero h0), ?_⟩
  all_goals
    simp [completed, regWrite, storedByte, spAfter, flAfter, jumpTarget, storeAddr, events, regTarget,
      Except.toOption, apply_ite_left Option.getD, Instr.operandCount, Instr.operandBytes, Instr.regOperands,
      advance, setPc, writeReg, emit, halt, setFl, zext9, regAddr, readReg]

/-! ## The instruction's own error (rule R167, item 5) -/

/-- Settles O16: only six instructions have an error of their own, and each raises it before it writes anything. -/
theorem ownErrorIsTaken : Obligations.OwnErrorIsTaken := by
  intro i s e hwf hown
  have hreg := fun b => exists_regByte_of_wellFormed (b := b) hwf
  cases i with
  | div a b =>
    obtain ⟨a, rfl⟩ := hreg a (by simp [Instr.regOperands])
    obtain ⟨b, rfl⟩ := hreg b (by simp [Instr.regOperands])
    obtain ⟨h0, rfl⟩ : s.regs[b] = 0x00 ∧ .divideByZero = e := by simpa [ownError, Except.toOption] using hown
    exact ((divModTruncateOrFailOnZero a b s).2 h0).1
  | mod a b =>
    obtain ⟨a, rfl⟩ := hreg a (by simp [Instr.regOperands])
    obtain ⟨b, rfl⟩ := hreg b (by simp [Instr.regOperands])
    obtain ⟨h0, rfl⟩ : s.regs[b] = 0x00 ∧ .divideByZero = e := by simpa [ownError, Except.toOption] using hown
    exact ((divModTruncateOrFailOnZero a b s).2 h0).2
  | call r =>
    obtain ⟨r, rfl⟩ := hreg r (by simp [Instr.regOperands])
    obtain ⟨hnone, hfull, _⟩ := callPushesTheReturnAddress r s
    by_cases hpc : s.pc.toNat + 2 > 255
    · obtain rfl : .addressOutOfRange (s.pc.toNat + 2) = e := by simpa [ownError, hpc] using hown
      exact hnone hpc
    · obtain ⟨h0, rfl⟩ : s.sp = 0x00 ∧ .stackOverflow = e := by simpa [ownError, hpc] using hown
      exact hfull (Nat.le_of_not_gt hpc) h0
  | push r =>
    obtain ⟨r, rfl⟩ := hreg r (by simp [Instr.regOperands])
    obtain ⟨h0, rfl⟩ : s.sp = 0x00 ∧ .stackOverflow = e := by simpa [ownError] using hown
    exact (pushPushesTheRegister r s).2.1 h0
  | pop r =>
    obtain ⟨r, rfl⟩ := hreg r (by simp [Instr.regOperands])
    obtain ⟨h0, rfl⟩ : s.sp = Config.spInit ∧ .stackUnderflow = e := by simpa [ownError] using hown
    exact (popPopsIntoTheRegister r s).2.1 h0
  | ret =>
    obtain ⟨h0, rfl⟩ : s.sp = Config.spInit ∧ .stackUnderflow = e := by simpa [ownError] using hown
    exact (retGoesToThePoppedByte.2 s).1 h0
  | _ => simp [ownError] at hown

/-! ## The three outcomes -/

/-- What executing an instruction answers: the error of a bad register byte, in this and in every other state; the
instruction's own error; or its completion. -/
theorem exec_outcomes (i : Instr) (s : State) :
    (i.wellFormed = false ∧ ∃ e, ∀ s, exec i s = .next (raise e s)) ∨
      (i.wellFormed = true ∧ ∃ e, ownError i s = some e ∧ exec i s = .next (raise e s)) ∨
      (i.wellFormed = true ∧ ownError i s = none ∧ exec i s = .next (completed i s)) := by
  cases hwf : i.wellFormed with
  | false => exact .inl ⟨rfl, exec_of_not_wellFormed hwf⟩
  | true =>
    cases hown : ownError i s with
    | some e => exact .inr (.inl ⟨rfl, e, rfl, ownErrorIsTaken i s e hwf hown⟩)
    | none => exact .inr (.inr ⟨rfl, rfl, exec_completed hwf hown⟩)

/-- A next state is an error taken or the completed instruction's. -/
theorem exec_next (h : exec i s = .next t) :
    (∃ e, t = raise e s) ∨ (i.wellFormed = true ∧ ownError i s = none ∧ t = completed i s) := by
  obtain ⟨_, e, he⟩ | ⟨_, e, _, he⟩ | ⟨hwf, hown, hc⟩ := exec_outcomes i s
  · exact .inl ⟨e, Host.Outcome.next.inj (h.symm.trans (he s))⟩
  · exact .inl ⟨e, Host.Outcome.next.inj (h.symm.trans he)⟩
  · exact .inr ⟨hwf, hown, Host.Outcome.next.inj (h.symm.trans hc)⟩

/-- Settles O17: the PC of the completed instruction is by definition its target or the advance. -/
theorem pcIsTheTargetOrTheAdvance : Obligations.PcIsTheTargetOrTheAdvance := fun i s hwf hown =>
  ⟨completed i s, exec_completed hwf hown, rfl⟩

/-- Settles O19: the error of a fetch and every outcome of an instruction are next states. -/
theorem runningCoreAlwaysSteps : Obligations.RunningCoreAlwaysSteps := by
  intro s hrun
  cases hf : fetchInstr s with
  | error e => exact ⟨_, step_of_fetch_error hrun hf⟩
  | ok i =>
    rw [step_of_fetch_ok hrun hf]
    obtain ⟨_, e, he⟩ | ⟨_, e, _, he⟩ | ⟨_, _, hc⟩ := exec_outcomes i s
    · exact ⟨_, he s⟩
    · exact ⟨_, he⟩
    · exact ⟨_, hc⟩

end Sys2Proof.Machine
end

section
/-! PROOFS. The frames of the instructions (spec/10_state.md rules R11, R14, R18 to R20, spec/20_memory.md rule R41,
spec/40_alu.md rule R84). The one idea: an error taken changes the run state and the cause alone, so each frame is a
fact about the tables that make up a completed instruction's next state. -/

namespace Sys2Proof.Machine

open Sys2Proof.Claims

variable {s t : State} {i : Instr}

/-! ## The register written (rule R11, "writes") -/

/-- An instruction is tabled to write no register, or its first register operand. -/
theorem writes_cases (i : Instr) : writes i = [] ∨ ∃ b ∈ i.regOperands, writes i = [b] := by
  cases i with
  | nop | hlt | ret | cmp | st | call | jmp | jeq | jne | jgt | jlt | jle | jge | push | prn | pra => exact .inl rfl
  | ldi a _ | pop a | inc a | dec a | not a | ld a _ | add a _ | sub a _ | mul a _ | div a _ | mod a _ | and a _
  | or a _ | xor a _ | shl a _ | shr a _ => exact .inr ⟨a, .head _, rfl⟩

/-- The register a completed instruction writes is the tabled one. -/
theorem regWrite_map_fst (i : Instr) (s : State) :
    (regWrite i s).map Prod.fst = (writes i).head?.map regOf := by
  cases i <;> rfl

theorem regWrite_mem_writes (hwf : i.wellFormed = true) {w : Fin 8 × Byte} (h : regWrite i s = some w) :
    regByte w.1 ∈ writes i := by
  have hfst := regWrite_map_fst i s
  obtain hnil | ⟨b, hb, hone⟩ := writes_cases i
  · simp [h, hnil] at hfst
  · obtain ⟨r, rfl⟩ := exists_regByte_of_wellFormed hwf hb
    have hw : w.1 = r := by simpa [h, hone] using hfst
    simp [hw, hone]

theorem regWrite_of_mem_writes {r : Fin 8} (h : regByte r ∈ writes i) (s : State) :
    ∃ x, regWrite i s = some (r, x) := by
  have hfst := regWrite_map_fst i s
  obtain hnil | ⟨b, _, hone⟩ := writes_cases i
  · simp [hnil] at h
  · obtain rfl : regByte r = b := by simpa [hone] using h
    simpa [hone] using hfst

/-- A register of a completed instruction's next state. -/
theorem completed_regs_get (i : Instr) (s : State) (q : Fin 8) :
    (completed i s).regs[q] = (regWrite i s).elim s.regs[q] fun w => if w.1 = q then w.2 else s.regs[q] := by
  unfold completed
  cases regWrite i s with
  | none => rfl
  | some w => simp [Vector.getElem_set, Fin.ext_iff]

/-- Settles O52: the register a completed instruction writes is a tabled one, and an error writes none. -/
theorem onlyTheTabledRegistersAreWritten : Obligations.OnlyTheTabledRegistersAreWritten := by
  intro i s t r h hr
  obtain ⟨e, rfl⟩ | ⟨hwf, _, rfl⟩ := exec_next h
  · rfl
  · rw [completed_regs_get]
    cases hw : regWrite i s with
    | none => rfl
    | some w =>
      have hne : w.1 ≠ r := fun hwr => hr (hwr ▸ regWrite_mem_writes hwf hw)
      exact if_neg hne

/-! ## The registers read (rule R11, "reads") -/

/-- The state with the registers replaced. -/
def setRegs (rs : Vector Byte 8) (s : State) : State := { s with regs := rs }

theorem reads_subset_regOperands (i : Instr) : reads i ⊆ i.regOperands := by
  cases i <;> simp [reads, Instr.regOperands]

/-- The registers tabled under "reads" exist, and `rs` has the contents of `s` in them. -/
def SameReads (i : Instr) (s : State) (rs : Vector Byte 8) : Prop :=
  ∀ b ∈ reads i, ∃ q : Fin 8, b = regByte q ∧ rs[q.val] = s.regs[q.val]

theorem sameReads_of_wellFormed {rs : Vector Byte 8} (hwf : i.wellFormed = true)
    (hrs : ∀ q : Fin 8, regByte q ∈ reads i → rs[q] = s.regs[q]) : SameReads i s rs := by
  intro b hb
  obtain ⟨q, rfl⟩ := exists_regByte_of_wellFormed hwf (reads_subset_regOperands i hb)
  exact ⟨q, rfl, hrs q hb⟩

section

variable {rs : Vector Byte 8} (hread : SameReads i s rs)
include hread

theorem ownError_setRegs : ownError i (setRegs rs s) = ownError i s := by
  cases i with
  | div a b | mod a b =>
    obtain ⟨b, rfl, hb⟩ := hread b (by simp [reads])
    simp [ownError, setRegs, Except.toOption, hb]
  | _ => rfl

theorem regWrite_setRegs : regWrite i (setRegs rs s) = regWrite i s := by
  cases i with
  | add a b | sub a b | mul a b | div a b | mod a b | and a b | or a b | xor a b =>
    obtain ⟨a, rfl, ha⟩ := hread a (by simp [reads])
    obtain ⟨b, rfl, hb⟩ := hread b (by simp [reads])
    simp [regWrite, setRegs, readReg, ha, hb]
  | ld a b | shl a b | shr a b =>
    obtain ⟨b, rfl, hb⟩ := hread b (by simp [reads])
    simp [regWrite, setRegs, readReg, hb]
  | inc a | dec a | not a =>
    obtain ⟨a, rfl, ha⟩ := hread a (by simp [reads])
    simp [regWrite, setRegs, readReg, ha]
  | _ => rfl

theorem storedByte_setRegs : storedByte i (setRegs rs s) = storedByte i s := by
  cases i with
  | st a b =>
    obtain ⟨b, rfl, hb⟩ := hread b (by simp [reads])
    simp [storedByte, setRegs, readReg, hb]
  | push r =>
    obtain ⟨r, rfl, hr⟩ := hread r (by simp [reads])
    simp [storedByte, setRegs, readReg, hr]
  | _ => rfl

theorem flAfter_setRegs : flAfter i (setRegs rs s) = flAfter i s := by
  cases i with
  | cmp a b =>
    obtain ⟨a, rfl, ha⟩ := hread a (by simp [reads])
    obtain ⟨b, rfl, hb⟩ := hread b (by simp [reads])
    simp [flAfter, setRegs, readReg, ha, hb]
  | _ => rfl

theorem jumpTarget_setRegs : jumpTarget i (setRegs rs s) = jumpTarget i s := by
  cases i with
  | call r | jmp r | jeq r | jne r | jgt r | jlt r | jle r | jge r =>
    obtain ⟨r, rfl, hr⟩ := hread r (by simp [reads])
    simp [jumpTarget, regTarget, setRegs, Except.toOption, hr]
  | _ => rfl

theorem storeAddr_setRegs : storeAddr i (setRegs rs s) = storeAddr i s := by
  cases i with
  | st a b =>
    obtain ⟨a, rfl, ha⟩ := hread a (by simp [reads])
    simp [storeAddr, regAddr, setRegs, readReg, Except.toOption, ha]
  | _ => rfl

theorem events_setRegs : events i (setRegs rs s) = events i s := by
  cases i with
  | prn r | pra r =>
    obtain ⟨r, rfl, hr⟩ := hread r (by simp [reads])
    simp [events, setRegs, Except.toOption, hr]
  | _ => rfl

/-- With other contents in the registers not read, a completed instruction's next state differs in the registers
alone. -/
theorem completed_setRegs :
    completed i (setRegs rs s) = setRegs (completed i (setRegs rs s)).regs (completed i s) := by
  simp only [completed, regWrite_setRegs hread, storedByte_setRegs hread, flAfter_setRegs hread,
    jumpTarget_setRegs hread, storeAddr_setRegs hread, events_setRegs hread]
  rfl

/-- A register of that next state, which has the same value written to the same register. -/
theorem completed_setRegs_get (q : Fin 8) :
    (completed i (setRegs rs s)).regs[q] = (regWrite i s).elim rs[q] fun w => if w.1 = q then w.2 else rs[q] := by
  rw [completed_regs_get, regWrite_setRegs hread]
  rfl

end

/-- Settles O53: an error does not depend on the register, and a completed instruction writes the same values. -/
theorem onlyTheTabledRegistersAreRead : Obligations.OnlyTheTabledRegistersAreRead := by
  intro i s r v hr
  have hother : ∀ q : Fin 8, q ≠ r → (s.regs.set r v)[q] = s.regs[q] := fun q hq =>
    Vector.getElem_set_ne _ _ (Fin.val_ne_iff.2 hq.symm)
  have hsame (hwf : i.wellFormed = true) : SameReads i s (s.regs.set r v) :=
    sameReads_of_wellFormed hwf fun q hq => hother q fun hqr => hr (hqr ▸ hq)
  obtain ⟨hbad, e, he⟩ | ⟨hwf, e, hown, he⟩ | ⟨hwf, hown, hc⟩ := exec_outcomes i s
  · exact ⟨_, _, he s, he _, rfl, hother, fun _ hwf => by simp [hbad] at hwf⟩
  · have hown' := (ownError_setRegs (hsame hwf)).trans hown
    exact ⟨_, _, he, ownErrorIsTaken i _ e hwf hown', rfl, hother, fun _ _ hnone => by simp [hown] at hnone⟩
  · have hread := hsame hwf
    have hown' := (ownError_setRegs hread).trans hown
    refine ⟨_, _, hc, exec_completed hwf hown', completed_setRegs hread, fun q hq => ?_, fun hw _ _ => ?_⟩
    · exact (completed_setRegs_get hread q).trans (by rw [completed_regs_get, hother q hq])
    · obtain ⟨x, hx⟩ := regWrite_of_mem_writes hw s
      refine (completed_setRegs_get hread r).trans ?_
      rw [completed_regs_get, hx]
      simp

/-! ## SP (rule R14) -/

/-- The instruction is none of the four that use the stack. -/
def NotStack (i : Instr) : Prop := (∀ r, i ≠ .push r ∧ i ≠ .pop r ∧ i ≠ .call r) ∧ i ≠ .ret

/-- The state with SP replaced. -/
def setSp (p : Byte) (s : State) : State := { s with sp := p }

/-- An instruction that does not use the stack neither writes SP nor depends on it. -/
theorem notStack_setSp (h : NotStack i) (s : State) (p : Byte) :
    spAfter i s.sp = s.sp ∧ ownError i (setSp p s) = ownError i s ∧
      completed i (setSp p s) = setSp p (completed i s) := by
  obtain ⟨hstack, hret⟩ := h
  cases i with
  | push r => exact absurd rfl (hstack r).1
  | pop r => exact absurd rfl (hstack r).2.1
  | call r => exact absurd rfl (hstack r).2.2
  | ret => exact absurd rfl hret
  | _ => exact ⟨rfl, rfl, rfl⟩

/-- Settles O55: the error or the completion is the same with another SP, which stays. -/
theorem stackPointerBelongsToTheStackInstructions : Obligations.StackPointerBelongsToTheStackInstructions := by
  intro i s p hstack hret
  obtain ⟨hsp, hown', hset⟩ := notStack_setSp ⟨hstack, hret⟩ s p
  obtain ⟨_, e, he⟩ | ⟨hwf, e, hown, he⟩ | ⟨hwf, hown, hc⟩ := exec_outcomes i s
  · exact ⟨_, he s, rfl, he _⟩
  · exact ⟨_, he, rfl, ownErrorIsTaken i _ e hwf (hown'.trans hown)⟩
  · exact ⟨_, hc, hsp, (exec_completed hwf (hown'.trans hown)).trans (congrArg _ hset)⟩

/-! ## Memory, output, the run state (rules R18 to R20, R41) -/

/-- Settles O56: a completed instruction stores at the tabled address or not at all, and an error stores nothing. -/
theorem onlyTheStoredCellChanges : Obligations.OnlyTheStoredCellChanges := by
  intro i s t a h ha
  obtain ⟨e, rfl⟩ | ⟨_, _, rfl⟩ := exec_next h
  · rfl
  · unfold completed
    cases haddr : storeAddr i s with
    | none => rfl
    | some b => exact Memory.read_write_other _ _ _ _ fun hab => ha (haddr.trans (congrArg some hab.symm))

/-- An instruction that is tabled to emit an event completes. -/
theorem events_eq_nil_or (i : Instr) (s : State) :
    events i s = [] ∨ i.wellFormed = true ∧ ownError i s = none := by
  cases i with
  | prn r | pra r =>
    by_cases hr : r.toNat < 8
    · exact .inr ⟨by simp [Instr.wellFormed, Instr.regOperands, Config.numRegs, hr], rfl⟩
    · exact .inl (by simp [events, regIndex_error (Nat.le_of_not_lt hr), Except.toOption])
  | _ => exact .inl rfl

/-- Settles O57: an error emits nothing, and is taken only where the table has no event. -/
theorem outputIsAppendedByPrnAndPraOnly : Obligations.OutputIsAppendedByPrnAndPraOnly := by
  intro i s t h
  obtain hnil | ⟨hwf, hown⟩ := events_eq_nil_or i s
  · obtain ⟨e, rfl⟩ | ⟨_, _, rfl⟩ := exec_next h
    · rw [hnil, List.append_nil, raise_out]
    · rfl
  · cases h.symm.trans (exec_completed hwf hown)
    rfl

/-- Settles O58: the run state and the cause of a completed instruction other than HLT. -/
theorem runStateAndCauseFrame : Obligations.RunStateAndCauseFrame := fun _ _ hwf hown hhlt =>
  ⟨_, exec_completed hwf hown, if_neg hhlt, if_neg hhlt⟩

/-! ## The ALU instructions (rule R84) -/

/-- What the tables say of an ALU instruction: it writes its first operand's register at most, and jumps, stores and
emits nothing. -/
structure AluTables (i : Instr) (s : State) : Prop where
  writes_head : ∀ b ∈ writes i, i.operandBytes.head? = some b
  length : BitVec.ofNat 9 (i.operandCount + 1) = if i.operandCount = 2 then 3 else 2
  no_jump : jumpTarget i s = none
  no_store : storeAddr i s = none
  no_event : events i s = []
  same_sp : spAfter i s.sp = s.sp
  ne_hlt : i ≠ .hlt

theorem aluTables (h : i.category = .arithmeticLogic) (s : State) : AluTables i s := by
  cases i with
  | add a _ | sub a _ | mul a _ | div a _ | mod a _ | and a _ | or a _ | xor a _ | shl a _ | shr a _ | cmp a _
  | inc a | dec a | not a =>
    exact ⟨by simp [writes, Instr.operandBytes, Instr.regOperands], rfl, rfl, rfl, rfl, rfl, by simp⟩
  | _ => cases h

/-- Settles O40: the tables of an ALU instruction, field by field; FL is CMP's alone (`exec_fl`). -/
theorem aluInstructionsChangeOnlyRegA : Obligations.AluInstructionsChangeOnlyRegA := by
  intro i s t hcat hwf hown h
  have hi := aluTables hcat s
  have ht : t = completed i s := Host.Outcome.next.inj (h.symm.trans (exec_completed hwf hown))
  refine ⟨fun r hr => onlyTheTabledRegistersAreWritten i s t r h fun hw => hr (hi.writes_head _ hw),
    fun ⟨a, b, hcmp⟩ => ?_, fun hcmp => exec_fl hcmp h, ?_, ?_, ?_, ?_, ?_, fun a => ?_⟩
  · rw [ht, hcmp]; rfl
  · simp only [ht, completed, hi.no_jump, hi.length, Option.getD_none]
  · rw [ht]; exact hi.same_sp
  · rw [ht]; exact if_neg hi.ne_hlt
  · rw [ht]; exact if_neg hi.ne_hlt
  · simp [ht, completed, hi.no_event]
  · simp [ht, completed, hi.no_store]

end Sys2Proof.Machine
end
